-- ==== Sys2Proof/Word.lean ====
section
/-! DEFINITION. The word types of the block: bytes, window, cursors, dispatch words, host codes. -/

namespace Sys2Proof

/-- A byte of `RAW` or `FRAME_OUT`, bit 0 least significant (00_scope.md R11). -/
abbrev Byte := BitVec 8

/-- The decode window `WIN`: bit `i` is the sample at index `i` (10_state.md R15). -/
abbrev Window := BitVec 32

/-- A window index, so that all arithmetic on it is modulo 32 (20_memory.md R32). -/
abbrev Cursor := BitVec 5

/-- The dispatch word RUN, ENOUGH, MORE, STRATEGY, STATE (30_encoding.md R62). -/
abbrev DispatchWord := BitVec 6

/-- A host command code (30_encoding.md R66). -/
abbrev HostCode := BitVec 3

end Sys2Proof
end

