-- ==== Sys2Proof/Config.lean ====
section
/-! DEFINITION. What is fixed when a block is built: the parameters of 00_scope.md R9, and the one open
function. The constants of R8 and the constraints of R10 stand in Machine/Params.lean. -/

namespace Sys2Proof

/-- The bit decoder built in (00_scope.md R2). -/
inductive Strategy where
  /-- majority-vote decoder with resync -/
  | nrz
  /-- Manchester half-bit decoder -/
  | man
deriving DecidableEq, Repr

/-- The parameters of 00_scope.md R9 (`L_MAX` is a constant there). The model carries them in State and no
operation writes them: DESIGN CHOICE, safe, log 1. -/
structure Config where
  strategy : Strategy
  nominalBitlen : Nat
  delimLen : Nat
  edgeHalf : Nat
  edgeMin : Nat
  minDist : Nat
  stuffThresh : Nat
  maxBits : Nat
  frameSize : Nat
  rawCap : Nat
  rssiThresh : Nat
  rssiHold : Nat
  eccEnable : Bool
  crc16Init : BitVec 16
  payloadMsbFirst : Bool
  crcLittleEndian : Bool
deriving DecidableEq, Repr

/-- The defaults of R9. The five OPEN parameters (`STRATEGY`, `MAX_BITS`, `FRAME_SIZE`, `RAW_CAP`,
`RSSI_THRESH`) have the values of program P1 of 95_test_vectors.md: DESIGN CHOICE, unsafe, log 1. -/
def Config.default : Config where
  strategy := .nrz
  nominalBitlen := 8
  delimLen := 4
  edgeHalf := 2
  edgeMin := 3
  minDist := 16
  stuffThresh := 4
  maxBits := 64
  frameSize := 4
  rawCap := 48
  rssiThresh := 100
  rssiHold := 1
  eccEnable := false
  crc16Init := 0
  payloadMsbFirst := true
  crcLittleEndian := true

/-- `EccDecode` (44_validator.md R133): from a byte list to `none`, the failure, or a byte list. It has no
body because nothing may be assumed of it: a free value, safe, log 8. -/
opaque Config.eccDecode : List Byte → Option (List Byte)

end Sys2Proof
end

