-- ==== Sys2Proof/Syntax.lean ====
section
/-! DEFINITION. The operations of the block, one constructor for each row of spec/opcode_table.json, and the
words they are decoded from. -/

namespace Sys2Proof

/-- The block's micro-operations (30_encoding.md R63) and the host's commands (R66, R67). -/
inductive Instr where
  /-- IDLE, 40_window_unpack.md R72 -/
  | idle
  /-- EXHAUST, 40_window_unpack.md R71 -/
  | exhaust
  /-- UNPACK, 40_window_unpack.md R70 -/
  | unpack
  /-- PRE, 41_sync_clock.md R81 -/
  | pre
  /-- DELIM, 41_sync_clock.md R84 -/
  | delim
  /-- DATA_NRZ, 42_decoders.md R100 -/
  | dataNrz
  /-- DATA_MAN, 42_decoders.md R104 -/
  | dataMan
  /-- ILLEGAL, 60_exceptions.md R188 -/
  | illegal
  /-- NOP, 45_host_ops.md R158 -/
  | nop
  /-- RESET, 45_host_ops.md R157 -/
  | reset
  /-- GATE with one signal-strength reading, 45_host_ops.md R153 -/
  | gate (rssi : Nat)
  /-- CAPTURE with its line samples in time order, 45_host_ops.md R154 -/
  | capture (samples : List Bool)
  /-- START, 45_host_ops.md R155 -/
  | start
  /-- RESERVED_5, host code 101, 30_encoding.md R67 -/
  | reserved5
  /-- RESERVED_6, host code 110, 30_encoding.md R67 -/
  | reserved6
  /-- RESERVED_7, host code 111, 30_encoding.md R67 -/
  | reserved7
deriving DecidableEq, Repr

/-- What the host puts on its side of the block in one step: the 3-bit code and, beside it, the operands of
GATE (a reading, R151) and of CAPTURE (the samples packed eight to a byte, the first in bit 0, R51 and R68).
A command reads only its own operand. How the operands are carried is a DESIGN CHOICE, safe, log 5. -/
structure HostWord where
  code : HostCode
  rssi : Nat
  line : List Byte
deriving DecidableEq, Repr

/-- A word to decode: the dispatch word of the block, or a command of the host. -/
inductive FetchWord where
  /-- format D of the opcode table -/
  | block (d : DispatchWord)
  /-- format H of the opcode table -/
  | host (w : HostWord)
deriving DecidableEq, Repr

end Sys2Proof
end

