-- ==== Sys2Proof/Machine/State.lean ====
section
/-! DEFINITION. The state of the block (10_state.md R13), the reasons a step can stop, and the state after
reset (R28). -/

namespace Sys2Proof.Machine

/-- The Synchronizer State and its 2-bit codes, in order 0 to 3 (10_state.md R20, 30_encoding.md R59). -/
inductive SyncState where
  | preamble
  | delimiter
  | data
  /-- the reserved code 3, which no operation writes (30_encoding.md R64) -/
  | reserved
deriving DecidableEq, Repr

/-- The RESULT codes, in order 0 to 7 (30_encoding.md R60). -/
inductive Result where
  | none
  | frameValid
  | abortExhausted
  | abortBadDelimiter
  | rejectEcc
  | rejectLength
  | rejectChecksum
  | faultIllegal
deriving DecidableEq, Repr

/-- A byte memory: its listed bytes by index, in the canonical form `Memory.wf`. -/
abbrev Memory := List Host.Cell

/-- The state. The first two fields are the model's own (log 1, log 2); the rest are the table of
10_state.md R13, in its order. -/
structure State where
  /-- the build parameters (00_scope.md R9), written by no operation (10_state.md R26) -/
  cfg : Config
  /-- what the host will issue, one slot a step: a command, or nothing -/
  inbox : List (Option HostWord)
  /-- `RAW`, the raw sample buffer (R14) -/
  raw : Memory
  /-- `WIN`, the decode window (R15) -/
  win : Window
  /-- `ACC`, the payload bit accumulator, `MAX_BITS` cells (R16) -/
  acc : List Bool
  /-- `FRAME_OUT`, the validated frame (R17) -/
  frameOut : Memory
  /-- `raw_idx`, the next raw byte (R18) -/
  rawIdx : Nat
  /-- `wr`, the write cursor (R18) -/
  wr : Cursor
  /-- `rd`, the read cursor (R18) -/
  rd : Cursor
  /-- `L`, the running bit length (R19) -/
  len : BitVec 4
  /-- `STATE` (R20) -/
  st : SyncState
  /-- `pol`, the level of the symbol `rd` stands in (R21) -/
  pol : Bool
  /-- `locked`, the first edge has been found (R21) -/
  locked : Bool
  /-- `cnt`, the delimiter bit counter (R21) -/
  cnt : BitVec 4
  /-- `delim_start`, the read cursor at the lock (R21) -/
  delimStart : Cursor
  /-- `bit_idx`, the number of bits stored (R22) -/
  bitIdx : Nat
  /-- `zero_run`, the trailing zero-run counter (R22) -/
  zeroRun : BitVec 3
  /-- `over`, the Manchester end marker (R23) -/
  manOver : Bool
  /-- `RUN`, a decode is in flight (R24) -/
  run : Bool
  /-- `RESULT` (R24) -/
  result : Result
  /-- `nbytes`, the validator's whole-byte length (R24) -/
  nbytes : Nat
  /-- `gate_cnt`, consecutive readings above the threshold (R25) -/
  gateCnt : Nat
  /-- `raw_loaded`, a CAPTURE has filled `RAW` since the last RESET (R25) -/
  rawLoaded : Bool
deriving DecidableEq, Repr

/-- Faults of the model: what the spec excludes by construction and gives no value to. No run from reset
raises one (Obligations.LegalRunNeverStops). -/
inductive Fault where
  /-- a consumer step with less lookahead than its `Need` (70_reset_and_hazards.md R204, U4); raised by
  PRE, DELIM, DATA_NRZ, DATA_MAN; safe -/
  | lookahead
  /-- an edge scorer that would read behind the read cursor (20_memory.md R35, U4); raised by DELIM and
  DATA_MAN; safe -/
  | behindCursor
  /-- a `RawRead` at or beyond `RAW_CAP` (20_memory.md R31); raised by UNPACK; safe -/
  | rawRange
  /-- an access to `ACC` at or beyond `MAX_BITS` (20_memory.md R41); raised by DATA_NRZ, DATA_MAN; safe -/
  | accRange
deriving DecidableEq, Repr

/-- Why the model gives a step no meaning. -/
inductive Refusal where
  /-- an instruction without a meaning; raised by no arm of `exec`; safe -/
  | notModelled (mnemonic : String)
  /-- parameters outside 00_scope.md R9 or R10 (70_reset_and_hazards.md R208, U3); raised by `step`; safe -/
  | illegalParameters
  /-- a bit length outside 1 to 10 (U2; 41_sync_clock.md R80 defines no vote above 10); raised by PRE,
  DELIM, DATA_NRZ, DATA_MAN; safe -/
  | bitLength
  /-- a CAPTURE that does not bring `8 * RAW_CAP` samples (45_host_ops.md R154); raised by `step` and
  CAPTURE; safe -/
  | captureSize
  /-- a word that no row of the decoder matches; raised by `step`, never in fact (30_encoding.md R63); safe -/
  | undecodable
deriving DecidableEq, Repr

/-- The outcome of one operation. -/
abbrev Out := Host.Outcome State Fault Refusal

/-- The state after RESET of a block with parameters `c` (10_state.md R28, 70_reset_and_hazards.md R200).
`RAW` and `FRAME_OUT` hold unspecified bytes there; the model lists none (DESIGN CHOICE, unsafe, log 6). -/
def State.resetOf (c : Config) : State where
  cfg := c
  inbox := []
  raw := []
  win := 0
  acc := List.replicate c.maxBits false
  frameOut := []
  rawIdx := 0
  wr := 0
  rd := 0
  len := BitVec.ofNat 4 c.nominalBitlen
  st := .preamble
  pol := true
  locked := false
  cnt := 0
  delimStart := 0
  bitIdx := 0
  zeroRun := 0
  manOver := false
  run := false
  result := .none
  nbytes := 0
  gateCnt := 0
  rawLoaded := false

/-- The machine right after reset: the block with the parameters `Config.default`. -/
def State.reset : State := State.resetOf Config.default

end Sys2Proof.Machine
end

