-- ==== Sys2Proof/Machine/Codes.lean ====
section
/-! DEFINITION. The binary codes of STRATEGY, STATE and RESULT (30_encoding.md R59, R60, R61). -/

namespace Sys2Proof.Machine

/-- The STRATEGY bit (R61). -/
def strategyCode : Strategy → Bool
  | .nrz => false
  | .man => true

/-- The strategy with the given bit. -/
def strategyOf (b : Bool) : Strategy :=
  if b then .man else .nrz

/-- The STATE code (R59). -/
def syncCode : SyncState → BitVec 2
  | .preamble => 0b00
  | .delimiter => 0b01
  | .data => 0b10
  | .reserved => 0b11

/-- The STATE with the given code. -/
def syncOf (b : BitVec 2) : SyncState :=
  match b.toNat with
  | 0 => .preamble
  | 1 => .delimiter
  | 2 => .data
  | _ => .reserved

/-- The RESULT code (R60). -/
def resultCode : Result → BitVec 3
  | .none => 0
  | .frameValid => 1
  | .abortExhausted => 2
  | .abortBadDelimiter => 3
  | .rejectEcc => 4
  | .rejectLength => 5
  | .rejectChecksum => 6
  | .faultIllegal => 7

end Sys2Proof.Machine
end

