-- ==== Sys2Proof/Machine/Bits.lean ====
section
/-! DEFINITION. Bits, bytes and samples: how eight one-bit values make a byte (30_encoding.md R36, R51). -/

namespace Sys2Proof.Machine

/-- The byte whose bit `k` is `f k`. -/
def byteOf (f : Nat → Bool) : Byte :=
  BitVec.ofBool (f 7) ++ BitVec.ofBool (f 6) ++ BitVec.ofBool (f 5) ++ BitVec.ofBool (f 4) ++
    BitVec.ofBool (f 3) ++ BitVec.ofBool (f 2) ++ BitVec.ofBool (f 1) ++ BitVec.ofBool (f 0)

/-- The eight samples of a raw byte in time order: the first is bit 0 (30_encoding.md R51). -/
def sampleBits (b : Byte) : List Bool :=
  [b.getLsbD 0, b.getLsbD 1, b.getLsbD 2, b.getLsbD 3,
    b.getLsbD 4, b.getLsbD 5, b.getLsbD 6, b.getLsbD 7]

/-- Line samples packed into `n` bytes: sample `8i + k` in bit `k` of byte `i` (45_host_ops.md R154). -/
def packSamples (n : Nat) (samples : List Bool) : List Byte :=
  (List.range n).map fun i => byteOf fun k => samples.getD (8 * i + k) false

/-- The samples that a list of raw bytes holds, in time order. -/
def unpackSamples (bytes : List Byte) : List Bool :=
  bytes.flatMap sampleBits

/-- How many `k < n` satisfy `p`: the sums of 00_scope.md R12 and 41_sync_clock.md R82. -/
def countBelow (n : Nat) (p : Nat → Bool) : Nat :=
  match n with
  | 0 => 0
  | k + 1 => countBelow k p + (p k).toNat

end Sys2Proof.Machine
end

