-- ==== Sys2Proof/Machine/Params.lean ====
section
/-! DEFINITION. The constants of 00_scope.md R8, the vote table, and the constraints of R9 and R10. -/

namespace Sys2Proof.Machine

/-- `WIN_SIZE` (R8). -/
abbrev winSize : Nat := 32
/-- `UNPACK_N` (R8). -/
abbrev unpackN : Nat := 8
/-- `L_MAX`, fixed by the vote table (R9). -/
abbrev lMax : Nat := 10
/-- `MAN_GROUP` (R8). -/
abbrev manGroup : Nat := 6
/-- `TERM_THRESH` (R8). -/
abbrev termThresh : Nat := 5

/-- `MAJ[n]` for `n` in 0..10 (R8, 41_sync_clock.md R80). -/
def maj (n : Nat) : Nat :=
  [0, 1, 1, 2, 2, 3, 3, 4, 4, 5, 5].getD n 0

/-- The legal ranges of 00_scope.md R9, parameter by parameter. -/
abbrev inRanges (c : Config) : Prop :=
  (4 ≤ c.nominalBitlen ∧ c.nominalBitlen ≤ 10) ∧
  (1 ≤ c.delimLen ∧ c.delimLen ≤ 15) ∧
  (1 ≤ c.edgeHalf ∧ c.edgeHalf ≤ 4) ∧
  (1 ≤ c.minDist ∧ c.minDist ≤ 31) ∧
  1 ≤ c.rawCap ∧ 1 ≤ c.rssiHold

/-- The constraints K1 to K9 of 00_scope.md R10. -/
abbrev constraintsHold (c : Config) : Prop :=
  (c.edgeHalf + 2 ≤ c.nominalBitlen ∧ c.nominalBitlen ≤ lMax) ∧
  c.nominalBitlen + 2 + max c.edgeHalf lMax ≤ winSize - unpackN ∧
  2 * lMax + 2 ≤ winSize - unpackN ∧
  c.minDist ≤ c.delimLen * (c.nominalBitlen - 2) ∧
  c.delimLen * (c.nominalBitlen + 2) < winSize + c.minDist ∧
  c.edgeHalf + 2 ≤ c.minDist / c.delimLen ∧
  (1 ≤ c.stuffThresh ∧ c.stuffThresh < termThresh) ∧
  (3 ≤ c.frameSize ∧ 8 * c.frameSize ≤ c.maxBits) ∧
  (1 ≤ c.edgeMin ∧ c.edgeMin ≤ 2 * c.edgeHalf)

/-- Parameters that this spec describes a block for (70_reset_and_hazards.md R208). -/
abbrev legal (c : Config) : Prop :=
  inRanges c ∧ constraintsHold c

end Sys2Proof.Machine
end

