-- ==== Sys2Proof/Machine/Scorer.lean ====
section
/-! DEFINITION. The decode window and what reads it: samples, the majority vote (41_sync_clock.md R80), the
edge scorer (R82, R83). -/

namespace Sys2Proof.Machine

/-- `WinRead(i)` (00_scope.md R12, 20_memory.md R32). -/
def winRead (w : Window) (i : Cursor) : Bool :=
  w.getLsbD i.toNat

/-- `WinWrite(i, b)` (00_scope.md R12, 20_memory.md R32). -/
def winWrite (w : Window) (i : Cursor) (b : Bool) : Window :=
  if b then w ||| (1#32 <<< i.toNat) else w &&& ~~~(1#32 <<< i.toNat)

/-- The first `n` bits of `b` written from index `i` upwards: the loop of 40_window_unpack.md R70. -/
def winWriteBits (w : Window) (i : Cursor) (b : Byte) (n : Nat) : Window :=
  match n with
  | 0 => w
  | k + 1 => winWrite (winWriteBits w i b k) (i + BitVec.ofNat 5 k) (b.getLsbD k)

/-- `Ones(i, n)` (00_scope.md R12). -/
def ones (w : Window) (i : Cursor) (n : Nat) : Nat :=
  countBelow n fun k => winRead w (i + BitVec.ofNat 5 k)

/-- `Vote(i, n)` (41_sync_clock.md R80). -/
def vote (w : Window) (i : Cursor) (n : Nat) : Bool :=
  decide (maj n ≤ ones w i n)

/-- `EdgeScore(p, q)` with `half` samples compared on each side (41_sync_clock.md R82). -/
def edgeScore (half : Nat) (w : Window) (p : Cursor) (q : Bool) : Nat :=
  countBelow half (fun k => winRead w (p - BitVec.ofNat 5 (k + 1)) == q) +
    countBelow half (fun k => winRead w (p + BitVec.ofNat 5 k) == !q)

/-- The score of the candidate at offset `o` from `base`. -/
def scoreAt (half : Nat) (w : Window) (base : Cursor) (q : Bool) (o : Int) : Nat :=
  edgeScore half w (base + BitVec.ofInt 5 o) q

/-- One turn of the search: a strictly greater score replaces the best so far (41_sync_clock.md R83). -/
def betterEdge (half : Nat) (w : Window) (base : Cursor) (q : Bool) (best : Int × Nat) (o : Int) : Int × Nat :=
  if best.2 < scoreAt half w base q o then (o, scoreAt half w base q o) else best

/-- `BestEdge(base, q)`: offset and score of the best of the five candidates (41_sync_clock.md R83). -/
def bestEdge (half : Nat) (w : Window) (base : Cursor) (q : Bool) : Int × Nat :=
  [-1, 0, 1, 2].foldl (betterEdge half w base q) (-2, scoreAt half w base q (-2))

end Sys2Proof.Machine
end

