-- ==== Sys2Proof/Machine/Flags.lean ====
section
/-! DEFINITION. The one-bit conditions: lookahead and its demand (20_memory.md R33, R38), the Manchester end
marker (42_decoders.md R106), the full accumulator (43_assembler.md R123), the open gate (45_host_ops.md R153). -/

namespace Sys2Proof.Machine

/-- The running bit length as a number. -/
def State.bitLen (s : State) : Nat := s.len.toNat

/-- `avail`, the available lookahead (20_memory.md R33). -/
def State.avail (s : State) : Nat := (s.wr - s.rd).toNat

/-- `Need` (20_memory.md R38; 0 for the reserved state, 30_encoding.md R62). -/
def needFor (c : Config) (strategy : Strategy) (st : SyncState) (len : Nat) : Nat :=
  match st, strategy with
  | .preamble, _ => len
  | .delimiter, _ => len + 2 + max c.edgeHalf lMax
  | .data, .nrz => len + 1
  | .data, .man => max (2 * len + 2) (max (len + manGroup) (len + 2 + c.edgeHalf))
  | .reserved, _ => 0

/-- The demand of the block in its present state. -/
def State.need (s : State) : Nat := needFor s.cfg s.cfg.strategy s.st s.bitLen

/-- ENOUGH, bit 4 of the dispatch word (30_encoding.md R62). -/
def State.enough (s : State) : Bool := decide (s.need ≤ s.avail)

/-- MORE, bit 3 of the dispatch word (30_encoding.md R62). -/
def State.more (s : State) : Bool := decide (s.rawIdx < s.cfg.rawCap)

/-- The bit length is one that the vote table and the spec allow (U2, 41_sync_clock.md R91). -/
def State.lengthLegal (s : State) : Bool := decide (1 ≤ s.bitLen ∧ s.bitLen ≤ lMax)

/-- The scorer at `rd + L` reads nothing behind `rd` (41_sync_clock.md R83). -/
def State.scorerAhead (s : State) : Bool := decide (s.cfg.edgeHalf + 2 ≤ s.bitLen)

/-- The "over" flag of two half-bit counts (42_decoders.md R106). -/
def overFlag (a b : Nat) : Bool :=
  (a == manGroup && b == manGroup) || (a == 0 && b == 0)

/-- `full`: the accumulator has reached its capacity (43_assembler.md R123). -/
def State.full (s : State) : Bool := decide (s.cfg.maxBits ≤ s.bitIdx)

/-- The gate is open (45_host_ops.md R153). -/
def State.gateOpen (s : State) : Bool := s.gateCnt == s.cfg.rssiHold

end Sys2Proof.Machine
end

