-- ==== Sys2Proof/Machine/Memory.lean ====
section
/-! DEFINITION. The byte memories RAW and FRAME_OUT (20_memory.md R30): reading, writing, canonical form. -/

namespace Sys2Proof.Machine

/-- What an unlisted byte reads as. The spec gives `RAW` and `FRAME_OUT` unspecified bytes after reset
(10_state.md R28, U5, U6): DESIGN CHOICE, unsafe, log 6. -/
def Memory.unlisted : Byte := 0

/-- The canonical form: indices strictly rising, no entry equal to what an unlisted byte reads as. -/
abbrev Memory.wf (m : Memory) : Prop :=
  m.Pairwise (fun x y => x.1 < y.1) ∧ ∀ c ∈ m, c.2 ≠ Memory.unlisted

/-- The byte at index `a`. -/
def Memory.read (m : Memory) (a : Nat) : Byte :=
  match m with
  | [] => Memory.unlisted
  | (x, y) :: m => if a = x then y else Memory.read m a

/-- Byte `b` written at index `a`, the form kept canonical. -/
def Memory.write (m : Memory) (a : Nat) (b : Byte) : Memory :=
  match m with
  | [] => if b = Memory.unlisted then [] else [(a, b)]
  | (x, y) :: m =>
    if a < x then
      if b = Memory.unlisted then (x, y) :: m else (a, b) :: (x, y) :: m
    else if a = x then
      if b = Memory.unlisted then m else (a, b) :: m
    else (x, y) :: Memory.write m a b

/-- The bytes `bs` written from index `a` upwards, one after the other. -/
def Memory.writeBytes (m : Memory) (a : Nat) (bs : List Byte) : Memory :=
  match bs with
  | [] => m
  | b :: bs => Memory.writeBytes (Memory.write m a b) (a + 1) bs

/-- The `n` bytes from index 0. -/
def Memory.readBytes (m : Memory) (n : Nat) : List Byte :=
  (List.range n).map m.read

end Sys2Proof.Machine
end

