-- ==== Sys2Proof/Machine/Ops.lean ====
section
/-! DEFINITION. Shared operations: the halt, the conditions a consumer step runs under, the registers that START
and RESET initialise. -/

namespace Sys2Proof.Machine

/-- `raise Halt(code)` (60_exceptions.md R181): the block's one way to take an exception. Nothing is saved and
no handler entered; there is no return from it (R192), only a new START. -/
def State.halt (s : State) (code : Result) : State :=
  { s with result := code, run := false }

/-- Run a consumer step of the state `st` only with a bit length that the spec allows (U2: refused) and the
lookahead it demands (R204, U4: a fault of the model). -/
def withLookahead (strategy : Strategy) (st : SyncState) (s : State) (body : Out) : Out :=
  if s.lengthLegal then
    if needFor s.cfg strategy st s.bitLen ≤ s.avail then body else .fault .lookahead
  else .refused .bitLength

/-- Run the edge scorer at `rd + L` only where it reads nothing behind `rd` (20_memory.md R35, U4). -/
def withScorer (s : State) (body : Out) : Out :=
  if s.scorerAhead then body else .fault .behindCursor

/-- The decode registers at their initial values: what START (45_host_ops.md R155) and RESET (10_state.md R28)
have in common. `RAW`, `FRAME_OUT`, `gate_cnt`, `raw_loaded`, `RUN` are not written. -/
def State.initDecode (s : State) : State :=
  { s with
    rawIdx := 0, wr := 0, rd := 0
    win := 0
    acc := List.replicate s.cfg.maxBits false
    len := BitVec.ofNat 4 s.cfg.nominalBitlen
    st := .preamble
    pol := true, locked := false, cnt := 0, delimStart := 0
    bitIdx := 0, zeroRun := 0, manOver := false
    nbytes := 0
    result := .none }

end Sys2Proof.Machine
end

