-- ==== Sys2Proof/Machine/Sync.lean ====
section
/-! DEFINITION. The frame synchronizer and the clock recovery: PRE and DELIM (41_sync_clock.md). -/

namespace Sys2Proof.Machine

/-- PRE on a hit (41_sync_clock.md R81): `rd` stays. -/
def State.preHit (s : State) : State :=
  { s with st := .delimiter, pol := true, locked := false, cnt := 0 }

/-- PRE on a miss (41_sync_clock.md R81). -/
def State.preMiss (s : State) : State :=
  { s with rd := s.rd + BitVec.ofNat 5 s.bitLen }

/-- PRE (41_sync_clock.md R81). -/
def execPre (s : State) : Out :=
  withLookahead s.cfg.strategy .preamble s <|
    .next (if vote s.win s.rd s.bitLen then s.preHit else s.preMiss)

/-- The bit length that the delimiter measures (41_sync_clock.md R90). -/
def measuredLength (c : Config) (rd delimStart : Cursor) : Nat :=
  let dist := (rd - delimStart).toNat
  (if dist < c.minDist then dist + winSize else dist) / c.delimLen

/-- `DelimFinalize` (41_sync_clock.md R90, R91, R92). -/
def State.delimFinalize (s : State) : State :=
  let newL := measuredLength s.cfg s.rd s.delimStart
  if newL < 1 ∨ lMax < newL then s.halt .abortBadDelimiter
  else
    { s with
      len := BitVec.ofNat 4 newL
      rd := s.rd + BitVec.ofNat 5 newL
      st := .data
      bitIdx := 0
      zeroRun := 0 }

/-- The cursor on the first sample after the edge, and the level flipped (41_sync_clock.md R84, R85). -/
def State.takeEdge (s : State) (o : Int) : State :=
  { s with rd := s.rd + BitVec.ofNat 5 s.bitLen + BitVec.ofInt 5 o, pol := !s.pol }

/-- The lock: the first edge of the frame, not counted (41_sync_clock.md R87). -/
def State.lockAt (s : State) : State :=
  { s with locked := true, delimStart := s.rd }

/-- A counted edge; the last one finalizes (41_sync_clock.md R88). -/
def State.countEdge (s : State) : State :=
  let s := { s with cnt := s.cnt + 1 }
  if s.cnt.toNat = s.cfg.delimLen then s.delimFinalize else s

/-- The DELIM step for the scorer's answer `(o, sc)` (41_sync_clock.md R84). -/
def State.delimStep (s : State) (edge : Int × Nat) : State :=
  if s.cfg.edgeMin ≤ edge.2 then
    if s.locked then (s.takeEdge edge.1).countEdge else (s.takeEdge edge.1).lockAt
  else if s.locked then s.halt .abortBadDelimiter
  else { s with rd := s.rd + 1 }

/-- The scorer's answer at `rd + L` for the level `q`. -/
def State.edgeAhead (s : State) (q : Bool) : Int × Nat :=
  bestEdge s.cfg.edgeHalf s.win (s.rd + BitVec.ofNat 5 s.bitLen) q

/-- DELIM (41_sync_clock.md R84). -/
def execDelim (s : State) : Out :=
  withLookahead s.cfg.strategy .delimiter s <|
    withScorer s <| .next (s.delimStep (s.edgeAhead s.pol))

end Sys2Proof.Machine
end

