-- ==== Sys2Proof/Machine/Assembler.lean ====
section
/-! DEFINITION. The payload assembler (43_assembler.md R120 to R123). -/

namespace Sys2Proof.Machine

/-- What the assembler does with one decoded bit: the bit to store, if any, the new `zero_run`, and `eof`. -/
structure Assembled where
  stored : Option Bool
  zeroRun : BitVec 3
  eof : Bool
deriving DecidableEq, Repr

/-- `ASM_NRZ(v)` (43_assembler.md R121). -/
def asmNrz (c : Config) (zeroRun : BitVec 3) (v : Bool) : Assembled :=
  if v then
    if c.stuffThresh ≤ zeroRun.toNat then ⟨none, 0, false⟩ else ⟨some true, 0, false⟩
  else if termThresh ≤ (zeroRun + 1).toNat then ⟨none, zeroRun + 1, true⟩
  else ⟨some false, zeroRun + 1, false⟩

/-- `ASM_MAN(v)` (43_assembler.md R122); `zero_run` is not used. -/
def asmMan (zeroRun : BitVec 3) (ov v : Bool) : Assembled :=
  if ov then ⟨none, zeroRun, true⟩ else ⟨some v, zeroRun, false⟩

/-- `STORE(b)` (43_assembler.md R120). -/
def State.store (s : State) (b : Bool) : State :=
  { s with acc := s.acc.set s.bitIdx b, bitIdx := s.bitIdx + 1 }

/-- The state after the assembler took one bit. -/
def State.assemble (s : State) (a : Assembled) : State :=
  match a.stored with
  | some b => ({ s with zeroRun := a.zeroRun }).store b
  | none => { s with zeroRun := a.zeroRun }

/-- Run a DATA step only where its STORE and its VALIDATE stay inside `ACC` (20_memory.md R41). -/
def withRoom (s : State) (a : Assembled) (body : Out) : Out :=
  if s.bitIdx < s.cfg.maxBits ∨ s.bitIdx = s.cfg.maxBits ∧ a.stored = none then body else .fault .accRange

end Sys2Proof.Machine
end

