-- ==== Sys2Proof/Machine/Crc.lean ====
section
/-! DEFINITION. The checksums (44_validator.md R137, R138, R140, R139). The correction lines of R137 and the
loop body of R139 are the spec's from general knowledge (G1, G4): PRESUMED, unsafe, log 17. -/

namespace Sys2Proof.Machine

/-- The nibble-folding corrections after the byte swap (44_validator.md R137). -/
def crcFold (x : BitVec 16) : BitVec 16 :=
  let x := x ^^^ ((x &&& 0xFF00) <<< 4)
  let x := x ^^^ ((x >>> 8) >>> 4)
  x ^^^ ((x &&& 0xFF00) >>> 5)

/-- `Crc16Add(acc, b)` (44_validator.md R137). -/
def crc16Add (acc : BitVec 16) (b : Byte) : BitVec 16 :=
  let x := acc ^^^ b.setWidth 16
  crcFold ((x >>> 8) ||| (x <<< 8))

/-- `Crc16(bytes, init)` (44_validator.md R138). -/
def crc16 (bytes : List Byte) (init : BitVec 16) : BitVec 16 :=
  bytes.foldl crc16Add init

/-- `n` turns of the bit-serial register with the reflected polynomial 0x8408 (44_validator.md R140). -/
def crcShift (n : Nat) (x : BitVec 16) : BitVec 16 :=
  match n with
  | 0 => x
  | n + 1 => crcShift n (if x.getLsbD 0 then (x >>> 1) ^^^ 0x8408 else x >>> 1)

/-- The bit-wise form of `Crc16Add` (44_validator.md R140). -/
def crc16AddSerial (acc : BitVec 16) (b : Byte) : BitVec 16 :=
  crcShift 8 (acc ^^^ b.setWidth 16)

/-- `n` turns of the loop of `Crc8Add` (44_validator.md R139). -/
def crc8Turns (n : Nat) (crc b : Byte) : Byte :=
  match n with
  | 0 => crc
  | n + 1 =>
    crc8Turns n (if (crc ^^^ b).getLsbD 0 then (crc >>> 1) ^^^ 0x8C else crc >>> 1) (b >>> 1)

/-- `Crc8Add(crc, b)` (44_validator.md R139). Nothing in the block calls it. -/
def crc8Add (crc b : Byte) : Byte :=
  crc8Turns 8 crc b

end Sys2Proof.Machine
end

