-- ==== Sys2Proof/Machine/Validator.lean ====
section
/-! DEFINITION. The frame validator (44_validator.md R130 to R136). -/

namespace Sys2Proof.Machine

/-- `AccByte(i)` (30_encoding.md R56). -/
def accByte (c : Config) (acc : List Bool) (i : Nat) : Byte :=
  byteOf fun k => acc.getD (8 * i + (if c.payloadMsbFirst then 7 - k else k)) false

/-- The first `n` bytes of the accumulator (44_validator.md R130). -/
def accBytes (c : Config) (acc : List Bool) (n : Nat) : List Byte :=
  (List.range n).map (accByte c acc)

/-- The checksum of the payload region of a frame (44_validator.md R135). -/
def frameChecksum (c : Config) (frame : List Byte) : BitVec 16 :=
  crc16 (frame.take (c.frameSize - 2)) c.crc16Init

/-- The trailing checksum field of a frame (30_encoding.md R58). -/
def frameField (c : Config) (frame : List Byte) : BitVec 16 :=
  if c.crcLittleEndian then frame.getD (c.frameSize - 1) 0 ++ frame.getD (c.frameSize - 2) 0
  else frame.getD (c.frameSize - 2) 0 ++ frame.getD (c.frameSize - 1) 0

/-- The validator's steps 3 and 4 on the byte list `frame` (44_validator.md R134, R135, R136). -/
def State.checkFrame (s : State) (frame : List Byte) : State :=
  if frame.length ≠ s.cfg.frameSize then
    ({ s with nbytes := frame.length }).halt .rejectLength
  else if frameChecksum s.cfg frame ≠ frameField s.cfg frame then
    ({ s with nbytes := frame.length }).halt .rejectChecksum
  else
    ({ s with nbytes := frame.length, frameOut := s.frameOut.writeBytes 0 frame }).halt .frameValid

/-- `VALIDATE` (44_validator.md R130): truncation, then error correction if configured, then the checks. Where
error correction is configured, `nbytes` takes the length of its output whole (R130; DEDUCED, log 9). -/
def State.validate (s : State) : State :=
  if s.cfg.eccEnable then
    match Config.eccDecode (accBytes s.cfg s.acc (s.bitIdx / 8)) with
    | none => ({ s with nbytes := s.bitIdx / 8 }).halt .rejectEcc
    | some frame => s.checkFrame frame
  else s.checkFrame (accBytes s.cfg s.acc (s.bitIdx / 8))

/-- The hand-off at the end of a DATA step: the validator runs on `eof` or a full accumulator
(43_assembler.md R123). -/
def State.handOff (s : State) (eof : Bool) : State :=
  if eof || s.full then s.validate else s

end Sys2Proof.Machine
end

