-- ==== Sys2Proof/Machine/Data.lean ====
section
/-! DEFINITION. The bit decoders: DATA_NRZ and DATA_MAN (42_decoders.md). -/

namespace Sys2Proof.Machine

/-- The NRZ resync (42_decoders.md R102): the adjustment for the decided bit `v`, the window's first sample and
the sample just past the window. -/
def nrzAdjust (v first past : Bool) : Int :=
  if first = v then 0 else if past ≠ v then -1 else 1

/-- The read cursor after a DATA_NRZ step that decided `v` (42_decoders.md R103). -/
def State.nrzCursor (s : State) (v : Bool) : Cursor :=
  s.rd + BitVec.ofNat 5 s.bitLen +
    BitVec.ofInt 5 (nrzAdjust v (winRead s.win s.rd) (winRead s.win (s.rd + BitVec.ofNat 5 s.bitLen)))

/-- DATA_NRZ (42_decoders.md R100). -/
def execDataNrz (s : State) : Out :=
  withLookahead .nrz .data s <|
    let v := vote s.win s.rd s.bitLen
    let a := asmNrz s.cfg s.zeroRun v
    withRoom s a <| .next ((({ s with rd := s.nrzCursor v }).assemble a).handOff a.eof)

/-- `A`, the ones of the first half-bit group (42_decoders.md R105). -/
def State.groupA (s : State) : Nat := ones s.win s.rd manGroup

/-- `B`, the ones of the second half-bit group (42_decoders.md R105). -/
def State.groupB (s : State) : Nat := ones s.win (s.rd + BitVec.ofNat 5 s.bitLen) manGroup

/-- The read cursor after a DATA_MAN step that decided `v` (42_decoders.md R107). -/
def State.manCursor (s : State) (v : Bool) : Cursor :=
  s.rd + BitVec.ofNat 5 (2 * s.bitLen) + BitVec.ofInt 5 (s.edgeAhead v).1

/-- DATA_MAN (42_decoders.md R104): with `over` set the validator runs and `rd` stays, and the scorer is not
asked; otherwise the bit is stored and the cursor moves. -/
def execDataMan (s : State) : Out :=
  withLookahead .man .data s <|
    let v := decide (s.groupB < s.groupA)
    let ov := overFlag s.groupA s.groupB
    let a := asmMan s.zeroRun ov v
    withRoom s a <|
      if a.eof then .next ((({ s with manOver := ov }).assemble a).validate)
      else
        withScorer s <|
          .next ((({ s with manOver := ov, rd := s.manCursor v }).assemble a).handOff false)

end Sys2Proof.Machine
end

