-- ==== Sys2Proof/WellFormed.lean ====
section
/-! DEFINITION. Which instruction terms stand for an operation of a block with the given parameters. -/

namespace Sys2Proof

/-- The one check an instruction needs: a CAPTURE brings exactly `8 * RAW_CAP` samples (45_host_ops.md R152,
R154: there is no partial capture). -/
def Instr.wellFormed (c : Config) : Instr → Bool
  | .capture samples => samples.length == 8 * c.rawCap
  | .idle | .exhaust | .unpack | .pre | .delim | .dataNrz | .dataMan | .illegal => true
  | .nop | .reset | .gate _ | .start | .reserved5 | .reserved6 | .reserved7 => true

end Sys2Proof
end

