-- ==== Sys2Proof/Decode.lean ====
section
/-! DEFINITION. The decoder, from the tables of 30_encoding.md R63, R66, R67, and the encoder. -/

namespace Sys2Proof

/-- Why a word or numeral is no instruction. -/
inductive DecodeError where
  /-- no row of the dispatch table matches; R63 says the rows cover all 64 words, so this never happens -/
  | noDispatchRow
  /-- a numeral of 64 or more is no 6-bit dispatch word (R62) -/
  | notSixBits
  /-- a numeral of 8 or more is no 3-bit host code (R66) -/
  | notThreeBits
deriving DecidableEq, Repr

/-- One row of the micro-operation map of R63. -/
structure DispatchRow where
  mask : DispatchWord
  pattern : DispatchWord
  instr : Instr
deriving DecidableEq, Repr

/-- The micro-operation map (30_encoding.md R63). -/
def dispatchRows : List DispatchRow :=
  [⟨0x20, 0x00, .idle⟩,
   ⟨0x38, 0x20, .exhaust⟩,
   ⟨0x38, 0x28, .unpack⟩,
   ⟨0x33, 0x30, .pre⟩,
   ⟨0x33, 0x31, .delim⟩,
   ⟨0x37, 0x32, .dataNrz⟩,
   ⟨0x37, 0x36, .dataMan⟩,
   ⟨0x33, 0x33, .illegal⟩]

/-- The micro-operation that a dispatch word selects. -/
def decodeDispatch (d : DispatchWord) : Except DecodeError Instr :=
  match dispatchRows.find? fun r => d &&& r.mask == r.pattern with
  | some r => .ok r.instr
  | none => .error .noDispatchRow

/-- The host command codes (30_encoding.md R66, R67), each with its own operand. -/
def decodeHost (w : HostWord) : Instr :=
  match w.code.toNat with
  | 0 => .nop
  | 1 => .reset
  | 2 => .gate w.rssi
  | 3 => .capture (Machine.unpackSamples w.line)
  | 4 => .start
  | 5 => .reserved5
  | 6 => .reserved6
  | _ => .reserved7

/-- The decoder. -/
def decode : FetchWord → Except DecodeError Instr
  | .block d => decodeDispatch d
  | .host w => .ok (decodeHost w)

/-- A host command without operand. -/
def HostWord.plain (code : HostCode) : HostWord := ⟨code, 0, []⟩

/-- The encoder: the row's pattern with every bit the row leaves open at 0, or the host's code with the
command's operand. -/
def encode : Instr → FetchWord
  | .idle => .block 0b000000
  | .exhaust => .block 0b100000
  | .unpack => .block 0b101000
  | .pre => .block 0b110000
  | .delim => .block 0b110001
  | .dataNrz => .block 0b110010
  | .dataMan => .block 0b110110
  | .illegal => .block 0b110011
  | .nop => .host (.plain 0b000)
  | .reset => .host (.plain 0b001)
  | .gate rssi => .host ⟨0b010, rssi, []⟩
  | .capture samples => .host ⟨0b011, 0, Machine.packSamples (samples.length / 8) samples⟩
  | .start => .host (.plain 0b100)
  | .reserved5 => .host (.plain 0b101)
  | .reserved6 => .host (.plain 0b110)
  | .reserved7 => .host (.plain 0b111)

/-- The two formats of the opcode table. -/
inductive Format where
  /-- D, a 6-bit dispatch word -/
  | dispatch
  /-- H, a 3-bit host code -/
  | host
deriving DecidableEq, Repr

/-- Which format a bare numeral is read in. With 3 bits it is a host code, with 6 bits a dispatch word. In
whole bytes the table's two formats overlap below 8, and there a numeral is read as a host code, since
IDLE, the one row of format D with words below 8, has words from 8 to 31 too. DESIGN CHOICE, safe, log 4. -/
def formatOf (nbits w : Nat) : Format :=
  match nbits with
  | 3 => .host
  | 6 => .dispatch
  | _ => if w < 8 then .host else .dispatch

/-- A host command given by its code alone, every operand bit 0: the reading 0, `rawCap` bytes of samples 0. -/
def bareHostWord (rawCap : Nat) (w : Nat) : HostWord :=
  ⟨BitVec.ofNat 3 w, 0, List.replicate rawCap 0⟩

/-- The word that a numeral of a row stands for, for a block with `rawCap` raw bytes. -/
def wordOfNumeral (rawCap nbits w : Nat) : Except DecodeError FetchWord :=
  match formatOf nbits w with
  | .dispatch => if w < 64 then .ok (.block (BitVec.ofNat 6 w)) else .error .notSixBits
  | .host => if w < 8 then .ok (.host (bareHostWord rawCap w)) else .error .notThreeBits

/-- The instruction of an opcode-table numeral, for the default parameters. -/
def decodeTableWord (nbits w : Nat) : Option Instr :=
  match wordOfNumeral Config.default.rawCap nbits w with
  | .ok f =>
    match decode f with
    | .ok i => some i
    | .error _ => none
  | .error _ => none

end Sys2Proof
end

