-- ==== Sys2Proof/Machine/Operands.lean ====
section
/-! DEFINITION. The operands of the host commands and when a command is legal (45_host_ops.md R150 to R152). -/

namespace Sys2Proof.Machine

/-- GATE is legal when no decode is in flight (45_host_ops.md R150). -/
def State.gateLegal (s : State) : Bool := !s.run

/-- CAPTURE is legal when no decode is in flight and the gate is open (45_host_ops.md R150). -/
def State.captureLegal (s : State) : Bool := !s.run && s.gateOpen

/-- START is legal when no decode is in flight and `RAW` is loaded (45_host_ops.md R150). -/
def State.startLegal (s : State) : Bool := !s.run && s.rawLoaded

/-- `gate_cnt` after a reading (45_host_ops.md R153): "above" is strict, the count saturates at `RSSI_HOLD`. -/
def gateCount (c : Config) (gateCnt rssi : Nat) : Nat :=
  if c.rssiThresh < rssi then
    if gateCnt < c.rssiHold then gateCnt + 1 else gateCnt
  else 0

end Sys2Proof.Machine
end

