-- ==== Sys2Proof/Machine/HostOps.lean ====
section
/-! DEFINITION. The host commands (45_host_ops.md R150 to R160) and what the host reads. A command that is not
legal changes no state (R150). -/

namespace Sys2Proof.Machine

/-- NOP (45_host_ops.md R158). -/
def execNop (s : State) : Out := .next s

/-- RESET (45_host_ops.md R157, 10_state.md R28). `RAW` and `FRAME_OUT` are not cleared (R157): DEDUCED, unsafe,
log 7. -/
def execReset (s : State) : Out :=
  .next { s.initDecode with run := false, gateCnt := 0, rawLoaded := false }

/-- GATE (45_host_ops.md R153). -/
def execGate (rssi : Nat) (s : State) : Out :=
  if s.gateLegal then .next { s with gateCnt := gateCount s.cfg s.gateCnt rssi } else .next s

/-- CAPTURE (45_host_ops.md R154). An operand that is not `8 * RAW_CAP` samples is no CAPTURE (log 15). -/
def execCapture (samples : List Bool) (s : State) : Out :=
  if samples.length = 8 * s.cfg.rawCap then
    if s.captureLegal then
      .next { s with
        raw := s.raw.writeBytes 0 (packSamples s.cfg.rawCap samples)
        rawLoaded := true
        gateCnt := 0 }
    else .next s
  else .refused .captureSize

/-- START (45_host_ops.md R155). -/
def execStart (s : State) : Out :=
  if s.startLegal then .next { s.initDecode with run := true } else .next s

/-- RESERVED_5 (30_encoding.md R67): refused, no state changes. -/
def execReserved5 (s : State) : Out := .next s

/-- RESERVED_6 (30_encoding.md R67): refused, no state changes. -/
def execReserved6 (s : State) : Out := .next s

/-- RESERVED_7 (30_encoding.md R67): refused, no state changes. -/
def execReserved7 (s : State) : Out := .next s

/-- What the host may rely on in `FRAME_OUT` (10_state.md R17, 45_host_ops.md R159): the frame, exactly when
the decode has ended FRAME_VALID. -/
def State.frameRead (s : State) : Option (List Byte) :=
  if s.run = false ∧ s.result = .frameValid then some (s.frameOut.readBytes s.cfg.frameSize) else none

/-- What the host reads from `RESULT` (45_host_ops.md R159): the 3-bit code of 30_encoding.md R60. -/
def State.resultRead (s : State) : BitVec 3 := resultCode s.result

/-- `ACQUIRE <n> <hex>` (30_encoding.md R69) as slots of the host's schedule: GATE until the gate is open,
CAPTURE, START. `RUN` needs no slot: with nothing issued the block steps. -/
def acquire (c : Config) (rssi : Nat) (line : List Byte) : List (Option HostWord) :=
  List.replicate c.rssiHold (some ⟨0b010, rssi, []⟩) ++ [some ⟨0b011, 0, line⟩, some (.plain 0b100)]

end Sys2Proof.Machine
end

