-- ==== Sys2Proof/Machine/Producer.lean ====
section
/-! DEFINITION. The micro-operations that consume no samples: IDLE, EXHAUST, UNPACK (40_window_unpack.md) and
ILLEGAL (60_exceptions.md R188). -/

namespace Sys2Proof.Machine

/-- IDLE (40_window_unpack.md R72): no state changes. -/
def execIdle (s : State) : Out := .next s

/-- EXHAUST (40_window_unpack.md R71). -/
def execExhaust (s : State) : Out := .next (s.halt .abortExhausted)

/-- UNPACK (40_window_unpack.md R70). -/
def execUnpack (s : State) : Out :=
  if s.rawIdx < s.cfg.rawCap then
    .next { s with
      win := winWriteBits s.win s.wr (s.raw.read s.rawIdx) unpackN
      wr := s.wr + 8
      rawIdx := s.rawIdx + 1 }
  else .fault .rawRange

/-- ILLEGAL (60_exceptions.md R188): the reserved STATE halts with FAULT_ILLEGAL. -/
def execIllegal (s : State) : Out := .next (s.halt .faultIllegal)

end Sys2Proof.Machine
end

