-- ==== Sys2Proof/Machine/Dispatch.lean ====
section
/-! DEFINITION. The dispatch of an instruction to its meaning, one arm per constructor of Instr. -/

namespace Sys2Proof.Machine

def exec (i : Instr) (s : State) : Host.Outcome State Fault Refusal :=
  match i with
  | .idle => Sys2Proof.Machine.execIdle s
  | .exhaust => Sys2Proof.Machine.execExhaust s
  | .unpack => Sys2Proof.Machine.execUnpack s
  | .pre => Sys2Proof.Machine.execPre s
  | .delim => Sys2Proof.Machine.execDelim s
  | .dataNrz => Sys2Proof.Machine.execDataNrz s
  | .dataMan => Sys2Proof.Machine.execDataMan s
  | .illegal => Sys2Proof.Machine.execIllegal s
  | .nop => Sys2Proof.Machine.execNop s
  | .reset => Sys2Proof.Machine.execReset s
  | .gate rssi => Sys2Proof.Machine.execGate rssi s
  | .capture samples => Sys2Proof.Machine.execCapture samples s
  | .start => Sys2Proof.Machine.execStart s
  | .reserved5 => Sys2Proof.Machine.execReserved5 s
  | .reserved6 => Sys2Proof.Machine.execReserved6 s
  | .reserved7 => Sys2Proof.Machine.execReserved7 s

end Sys2Proof.Machine
end

