-- ==== Sys2Proof/Machine/Fetch.lean ====
section
/-! DEFINITION. Where the next operation comes from: the host's slot, else the dispatch word (30_encoding.md R62,
45_host_ops.md R156); and how a given word is placed there. -/

namespace Sys2Proof.Machine

/-- The dispatch word `D` (30_encoding.md R62). -/
def dispatchWord (s : State) : DispatchWord :=
  BitVec.ofBool s.run ++ BitVec.ofBool s.enough ++ BitVec.ofBool s.more ++
    BitVec.ofBool (strategyCode s.cfg.strategy) ++ syncCode s.st

/-- The word of this step: the command the host issues, if it issues one, else the dispatch word. That the
host's turn is a slot of the schedule is a DESIGN CHOICE, safe, log 2. -/
def fetch (s : State) : FetchWord :=
  match s.inbox with
  | some w :: _ => .host w
  | _ => .block (dispatchWord s)

/-- The slot of this step is used up. -/
def State.nextSlot (s : State) : State :=
  { s with inbox := s.inbox.tail }

/-- The slots with none of the host's commands in front. -/
def quietInbox (inbox : List (Option HostWord)) : List (Option HostWord) :=
  match inbox with
  | some w :: rest => none :: some w :: rest
  | rest => rest

/-- The host issues `w` in the next step. -/
def State.placeHost (s : State) (w : HostWord) : State :=
  { s with inbox := some w :: s.inbox }

/-- The STATE field for a placed dispatch word: a word that says "not ENOUGH" in the reserved state cannot
occur (30_encoding.md R63) and is placed with STATE = 0, which selects the same row. -/
def placedState (d : DispatchWord) : SyncState :=
  let st := syncOf (d.extractLsb' 0 2)
  if d.getLsbD 4 = false ∧ st = .reserved then .preamble else st

/-- The write cursor for a placed dispatch word: left alone where ENOUGH already is as `d` has it, else 24 ahead
of `rd` (no demand exceeds 24, 20_memory.md R40) or level with it. -/
def State.placedWr (s : State) (d : DispatchWord) : Cursor :=
  if s.enough = d.getLsbD 4 then s.wr else if d.getLsbD 4 then s.rd + 24 else s.rd

/-- The raw index for a placed dispatch word: left alone where MORE already is as `d` has it. -/
def State.placedRawIdx (s : State) (d : DispatchWord) : Nat :=
  if s.more = d.getLsbD 3 then s.rawIdx else if d.getLsbD 3 then 0 else s.cfg.rawCap

/-- The block's next dispatch word is `d`: RUN, STRATEGY and STATE as its bits say, the cursors and the raw
index so that ENOUGH and MORE are as it says (log 3, log 4). -/
def State.placeDispatch (s : State) (d : DispatchWord) : State :=
  let s := { s with
    inbox := quietInbox s.inbox
    cfg := { s.cfg with strategy := strategyOf (d.getLsbD 2) }
    run := d.getLsbD 5
    st := placedState d }
  { s with wr := s.placedWr d, rawIdx := s.placedRawIdx d }

/-- The word of an opcode-table numeral placed where the next step takes its operation from. -/
def State.placeNumeral (s : State) (nbits w : Nat) : State :=
  match wordOfNumeral s.cfg.rawCap nbits w with
  | .ok (.block d) => s.placeDispatch d
  | .ok (.host h) => s.placeHost h
  | .error _ => s

end Sys2Proof.Machine
end

