-- ==== Sys2Proof/Machine/Step.lean ====
section
/-! DEFINITION. One step of the machine (45_host_ops.md R156). -/

namespace Sys2Proof.Machine

/-- Fetch, decode, execute. Parameters outside the spec give no block (70_reset_and_hazards.md R208: refused,
log 14). -/
def step (s : State) : Host.Outcome State Fault Refusal :=
  if legal s.cfg then
    match decode (fetch s) with
    | .ok i => if i.wellFormed s.cfg then exec i s.nextSlot else .refused .captureSize
    | .error _ => .refused .undecodable
  else .refused .illegalParameters

/-- `s` with the instruction of the opcode-table numeral `w` where the next step fetches it. -/
def State.withFetchWord (s : State) (nbits w : Nat) : State :=
  s.placeNumeral nbits w

end Sys2Proof.Machine
end

