-- ==== Sys2Proof/Machine/Line.lean ====
section
/-! DEFINITION. The line format a transmitter must send (30_encoding.md R52 to R58). The transmitter is outside
the block (R52); nothing here is called by a step. -/

namespace Sys2Proof.Machine

/-- NRZ bit stuffing (30_encoding.md R55) from a count of `zeros` consecutive 0 data bits: after the
`thresh`-th one a 1 is inserted and the count restarts. -/
def stuffFrom (thresh zeros : Nat) (bits : List Bool) : List Bool :=
  match bits with
  | [] => []
  | true :: rest => true :: stuffFrom thresh 0 rest
  | false :: rest =>
    if zeros + 1 = thresh then false :: true :: stuffFrom thresh 0 rest
    else false :: stuffFrom thresh (zeros + 1) rest

/-- The frame that carries a payload: the payload, then its checksum (30_encoding.md R57, R58). -/
def frameOf (c : Config) (payload : List Byte) : List Byte :=
  let sum := crc16 payload c.crc16Init
  payload ++
    if c.crcLittleEndian then [sum.setWidth 8, (sum >>> 8).setWidth 8]
    else [(sum >>> 8).setWidth 8, sum.setWidth 8]

/-- The bits of a frame in the order they are sent (30_encoding.md R52, R56). -/
def frameBits (c : Config) (frame : List Byte) : List Bool :=
  frame.flatMap fun b => if c.payloadMsbFirst then (sampleBits b).reverse else sampleBits b

/-- The delimiter: `DELIM_LEN + 1` alternating symbols starting with 0 (30_encoding.md R54). -/
def delimiterSymbols (c : Config) : List Bool :=
  (List.range (c.delimLen + 1)).map fun i => i % 2 == 1

/-- The NRZ line symbols of a frame after a preamble of `pre` symbols (30_encoding.md R52). -/
def nrzSymbols (c : Config) (pre : Nat) (frame : List Byte) : List Bool :=
  List.replicate pre true ++ delimiterSymbols c ++ stuffFrom c.stuffThresh 0 (frameBits c frame) ++
    List.replicate termThresh false

/-- The Manchester line symbols of a frame, before the silence (30_encoding.md R53). -/
def manSymbols (c : Config) (pre : Nat) (frame : List Byte) : List Bool :=
  List.replicate pre true ++ delimiterSymbols c ++ (frameBits c frame).flatMap fun b => [b, !b]

/-- Line symbols at `n` samples a symbol. -/
def renderLine (n : Nat) (symbols : List Bool) : List Bool :=
  symbols.flatMap (List.replicate n)

/-- The assembler fed a list of decoded NRZ bits, up to its end of frame: the bits stored, the last `zero_run`
and whether the end of frame was signalled (43_assembler.md R121). -/
def asmNrzAll (c : Config) (zeroRun : BitVec 3) (bits : List Bool) : List Bool × BitVec 3 × Bool :=
  match bits with
  | [] => ([], zeroRun, false)
  | v :: rest =>
    let a := asmNrz c zeroRun v
    if a.eof then ([], a.zeroRun, true)
    else
      let r := asmNrzAll c a.zeroRun rest
      (a.stored.toList ++ r.1, r.2)

end Sys2Proof.Machine
end

