-- ==== Sys2Proof/Safety.lean ====
section
/-! DEFINITION. What a state of the block that some run can reach looks like, and the words that statements
about runs use. -/

namespace Sys2Proof.Machine

/-- The invariant of the block. Every clause says what a rule of the spec promises of every state between two
operations; a state that meets it can be followed by no fault (Obligations.LegalRunNeverStops). -/
structure Inv (s : State) : Prop where
  /-- the parameters meet 00_scope.md R9 and R10 -/
  legalParameters : legal s.cfg
  /-- `RAW` is in canonical form and has only the indices 0..`RAW_CAP`-1 (20_memory.md R30) -/
  rawForm : s.raw.wf
  rawIndices : ∀ c ∈ s.raw, c.1 < s.cfg.rawCap
  /-- `FRAME_OUT` is in canonical form and has only the indices 0..`FRAME_SIZE`-1 (20_memory.md R30) -/
  frameForm : s.frameOut.wf
  frameIndices : ∀ c ∈ s.frameOut, c.1 < s.cfg.frameSize
  /-- `ACC` has `MAX_BITS` cells (10_state.md R16) -/
  accCells : s.acc.length = s.cfg.maxBits
  /-- `raw_idx` is 0..`RAW_CAP` (10_state.md R18) -/
  rawIdxRange : s.rawIdx ≤ s.cfg.rawCap
  /-- the write cursor has moved 8 per raw byte (20_memory.md R34) -/
  wrFollowsRaw : s.wr = BitVec.ofNat 5 (8 * s.rawIdx)
  /-- the reserved STATE code is never written (30_encoding.md R64) -/
  notReserved : s.st ≠ .reserved
  /-- `L` is in 1..`L_MAX` (10_state.md R19, U2) -/
  lengthRange : 1 ≤ s.bitLen ∧ s.bitLen ≤ lMax
  /-- before DATA, `L` is nominal (41_sync_clock.md R81) -/
  lengthNominal : s.st ≠ .data → s.bitLen = s.cfg.nominalBitlen
  /-- in DATA, `L` leaves the scorer ahead of the read cursor (41_sync_clock.md R91) -/
  lengthData : s.st = .data → s.cfg.edgeHalf + 2 ≤ s.bitLen
  /-- `cnt` is 0..`DELIM_LEN`, below it while the delimiter is being measured (41_sync_clock.md R88) -/
  cntRange : s.cnt.toNat ≤ s.cfg.delimLen
  cntOpen : s.run = true → s.st ≠ .data → s.cnt.toNat < s.cfg.delimLen
  /-- nothing is counted before the lock (41_sync_clock.md R86) -/
  cntLocked : s.locked = false → s.cnt = 0
  /-- `bit_idx` is 0..`MAX_BITS`, and 0 before DATA; a full accumulator has ended the decode
  (10_state.md R22, 43_assembler.md R123) -/
  bitIdxRange : s.bitIdx ≤ s.cfg.maxBits
  bitIdxOpen : s.run = true → s.bitIdx < s.cfg.maxBits
  bitIdxData : s.st ≠ .data → s.bitIdx = 0
  /-- `zero_run` is 0..`TERM_THRESH`; it reaches it only by ending the decode, and is 0 before DATA and in MAN
  strategy (10_state.md R22, 43_assembler.md R121) -/
  zeroRunRange : s.zeroRun.toNat ≤ termThresh
  zeroRunOpen : s.run = true → s.zeroRun.toNat < termThresh
  zeroRunData : s.st ≠ .data → s.zeroRun = 0
  zeroRunNrz : s.cfg.strategy = .man → s.zeroRun = 0
  /-- `over` is 1 only after a Manchester decode that ended through it (42_decoders.md R106) -/
  overMan : s.manOver = true → s.cfg.strategy = .man ∧ s.run = false
  /-- `RESULT` is NONE and `nbytes` is 0 while `RUN = 1` (10_state.md R24) -/
  resultOpen : s.run = true → s.result = .none ∧ s.nbytes = 0
  /-- `nbytes` is 0..`MAX_BITS div 8`, but for the output of error correction, whose length is open
  (10_state.md R13, 44_validator.md R131; log 9) -/
  nbytesRange : s.cfg.eccEnable = false → s.nbytes ≤ s.cfg.maxBits / 8
  /-- `nbytes` is 0 until VALIDATE runs (10_state.md R24) -/
  nbytesClosed : s.result = .none ∨ s.result = .abortExhausted ∨ s.result = .abortBadDelimiter → s.nbytes = 0
  /-- what the validator's outcomes record in `nbytes` (60_exceptions.md R182, R185) -/
  nbytesFrame : s.result = .frameValid ∨ s.result = .rejectChecksum → s.nbytes = s.cfg.frameSize
  nbytesLength : s.result = .rejectLength → s.nbytes ≠ s.cfg.frameSize
  nbytesEcc : s.result = .rejectEcc → s.cfg.eccEnable = true ∧ s.nbytes = s.bitIdx / 8
  /-- what the two aborts record (60_exceptions.md R182, R184) -/
  exhaustedRaw : s.result = .abortExhausted → s.rawIdx = s.cfg.rawCap
  badDelimiter : s.result = .abortBadDelimiter → s.st = .delimiter ∧ s.locked = true
  /-- with FRAME_VALID, `FRAME_OUT` holds a frame whose checksum is right (10_state.md R17) -/
  frameChecked : s.result = .frameValid →
    frameChecksum s.cfg (s.frameOut.readBytes s.cfg.frameSize) =
      frameField s.cfg (s.frameOut.readBytes s.cfg.frameSize)
  /-- FAULT_ILLEGAL is never met (60_exceptions.md R188) -/
  resultLegal : s.result ≠ .faultIllegal
  /-- `gate_cnt` saturates at `RSSI_HOLD` (10_state.md R25) -/
  gateRange : s.gateCnt ≤ s.cfg.rssiHold
  /-- only a loaded `RAW` is decoded (45_host_ops.md R155) -/
  runLoaded : s.run = true → s.rawLoaded = true

/-- The host issues no command in this step, so the block has it (45_host_ops.md R156). -/
abbrev State.hostSilent (s : State) : Prop :=
  s.inbox.head?.join = none

/-- The host issues the command `i` in this step. -/
def State.hostIssues (s : State) (i : Instr) : Prop :=
  ∃ w, s.inbox.head?.join = some w ∧ decode (.host w) = .ok i

/-- The operation that a step runs. -/
def State.runs (s : State) (i : Instr) : Prop :=
  decode (fetch s) = .ok i ∧ i.wellFormed s.cfg = true

/-- Every dispatch word of the pattern selects `i` (30_encoding.md R63). -/
def Selects (mask pattern : DispatchWord) (i : Instr) : Prop :=
  ∀ d : DispatchWord, d &&& mask = pattern → decode (.block d) = .ok i

/-- The host code `code` is the command `i` makes of its operands (30_encoding.md R66). -/
def CodeOf (code : HostCode) (i : Nat → List Byte → Instr) : Prop :=
  ∀ rssi line, decode (.host ⟨code, rssi, line⟩) = .ok (i rssi line)

/-- A consumer step of the state `st` may run: a bit length that the spec allows, and the lookahead the step
demands, the formulas of 20_memory.md R38 written out. -/
def State.mayConsume (s : State) (strategy : Strategy) (st : SyncState) : Prop :=
  1 ≤ s.bitLen ∧ s.bitLen ≤ 10 ∧
    match st, strategy with
    | .preamble, _ => s.bitLen ≤ s.avail
    | .delimiter, _ => s.bitLen + 2 + max s.cfg.edgeHalf 10 ≤ s.avail
    | .data, .nrz => s.bitLen + 1 ≤ s.avail
    | .data, .man => max (2 * s.bitLen + 2) (max (s.bitLen + 6) (s.bitLen + 2 + s.cfg.edgeHalf)) ≤ s.avail
    | .reserved, _ => True

/-- No byte of `RAW` or `FRAME_OUT` reads differently. -/
def SameBytes (s t : State) : Prop :=
  ∀ a, t.raw.read a = s.raw.read a ∧ t.frameOut.read a = s.frameOut.read a

/-- What is left of a decode: the raw bytes not unpacked, nine for each, the samples not consumed, and the one
PRE hit (70_reset_and_hazards.md R209). -/
def State.workLeft (s : State) : Nat :=
  9 * (s.cfg.rawCap - s.rawIdx) + s.avail + if s.st = .preamble then 1 else 0

/-- Two blocks in the same place of the same decode: they differ at most in `gate_cnt` and in what FRAME_OUT holds
while it means nothing (45_host_ops.md R156, 70_reset_and_hazards.md R201, U6). -/
structure Lockstep (s s' : State) : Prop where
  sameRegisters : s' = { s with gateCnt := s'.gateCnt, frameOut := s'.frameOut }
  frameForm : s.frameOut.wf
  frameForm' : s'.frameOut.wf
  sameFrame : s.result = .frameValid →
    s'.frameOut.readBytes s.cfg.frameSize = s.frameOut.readBytes s.cfg.frameSize

/-- The sample of the window at distance `k` from the read cursor. -/
def State.ahead (s : State) (k : Nat) : Bool :=
  winRead s.win (s.rd + BitVec.ofNat 5 k)

end Sys2Proof.Machine
end

