-- ==== Sys2Proof/Certificates/Slice0/Obligations.lean ====
section
/-! DEFINITION. The statements for the provers. Each docstring names the rules of spec/ it formalises. -/

open Sys2Proof Sys2Proof.Machine

/-! ## Encodings -/

/-- 30_encoding.md R63: the micro-operation map; the patterns are disjoint and cover all 64 words; the words
`10xx11` cannot occur; the reserved STATE with RUN = 1 always decodes to ILLEGAL. -/
def Obligations.DispatchMapIsTotalAndDisjoint : Prop :=
  Selects 0x20 0x00 .idle ∧ Selects 0x38 0x20 .exhaust ∧ Selects 0x38 0x28 .unpack ∧
  Selects 0x33 0x30 .pre ∧ Selects 0x33 0x31 .delim ∧ Selects 0x37 0x32 .dataNrz ∧
  Selects 0x37 0x36 .dataMan ∧ Selects 0x33 0x33 .illegal ∧
  (∀ d : DispatchWord, (dispatchRows.filter fun r => d &&& r.mask == r.pattern).length = 1) ∧
  (∀ s : State, dispatchWord s &&& 0x33 ≠ 0x23) ∧
  (∀ s : State, s.run = true → s.st = .reserved → decode (.block (dispatchWord s)) = .ok .illegal)

/-- 30_encoding.md R66 and R67: the eight host codes, each with its own operand. How the operands are carried
beside the code is the model's choice (log 5). -/
def Obligations.HostCodesDecodeByTable : Prop :=
  CodeOf 0 (fun _ _ => .nop) ∧ CodeOf 1 (fun _ _ => .reset) ∧ CodeOf 2 (fun rssi _ => .gate rssi) ∧
  CodeOf 3 (fun _ line => .capture (unpackSamples line)) ∧ CodeOf 4 (fun _ _ => .start) ∧
  CodeOf 5 (fun _ _ => .reserved5) ∧ CodeOf 6 (fun _ _ => .reserved6) ∧ CodeOf 7 (fun _ _ => .reserved7)

/-- A few words of 95_test_vectors.md sections 2.2 and 4, bit by bit, and table numerals, whose
reading where the two formats overlap is the model's choice (log 4). -/
def Obligations.WrittenOutWordsDecode : Prop :=
  decode (.block 0b101000) = .ok .unpack ∧ decode (.block 0b111000) = .ok .pre ∧
  decode (.block 0b111001) = .ok .delim ∧ decode (.block 0b111010) = .ok .dataNrz ∧
  decode (.block 0b111110) = .ok .dataMan ∧ decode (.block 0b100010) = .ok .exhaust ∧
  decode (.host ⟨0b010, 150, []⟩) = .ok (.gate 150) ∧
  decode (.host ⟨0b011, 0, [0x1F, 0xE0]⟩) =
    .ok (.capture [true, true, true, true, true, false, false, false,
      false, false, false, false, false, true, true, true]) ∧
  decodeTableWord 8 0x28 = some .unpack ∧ decodeTableWord 8 0x04 = some .start ∧
  decodeTableWord 8 0x40 = none

/-- Decoding what the encoder writes gives every well-formed instruction back, with every operand. -/
def Obligations.DecodeOfEncodeIsIdentity : Prop :=
  ∀ (c : Config) (i : Instr), i.wellFormed c = true → decode (encode i) = .ok i

/-- 30_encoding.md R62: each bit of the dispatch word, with `avail` of 20_memory.md R33 and the four demands of
R38 written out, `Need` being 0 in the reserved state. -/
def Obligations.DispatchWordBitsAreTheSchedulersFacts : Prop :=
  ∀ s : State,
    let L := s.len.toNat
    let need := match s.st, s.cfg.strategy with
      | .preamble, _ => L
      | .delimiter, _ => L + 2 + max s.cfg.edgeHalf 10
      | .data, .nrz => L + 1
      | .data, .man => max (2 * L + 2) (max (L + 6) (L + 2 + s.cfg.edgeHalf))
      | .reserved, _ => 0
    (dispatchWord s).getLsbD 5 = s.run ∧
    (dispatchWord s).getLsbD 4 = decide (need ≤ (s.wr - s.rd).toNat) ∧
    (dispatchWord s).getLsbD 3 = decide (s.rawIdx < s.cfg.rawCap) ∧
    (dispatchWord s).getLsbD 2 = decide (s.cfg.strategy = .man) ∧
    (dispatchWord s).extractLsb' 0 2 =
      (match s.st with | .preamble => 0 | .delimiter => 1 | .data => 2 | .reserved => 3)

/-! ## The step -/

/-- 45_host_ops.md R156: a step of a legal block runs exactly the decoded operation, on the state whose slot of
the host's schedule is used up; and it takes the host's command where there is one, else the dispatch word. The
schedule is the model's choice (log 2). -/
def Obligations.StepRunsDecodedInstruction : Prop :=
  ∀ (s : State) (i : Instr), legal s.cfg → s.runs i →
    step s = exec i { s with inbox := s.inbox.tail } ∧
    (∀ w, s.inbox.head?.join = some w → fetch s = .host w) ∧
    (s.hostSilent → fetch s = .block (dispatchWord s))

/-- 20_memory.md R39: the consumer step of STATE if the lookahead suffices, else UNPACK if raw bytes remain,
else EXHAUST. The four demands are those of R38, written out. -/
def Obligations.SchedulerPrefersConsumer : Prop :=
  ∀ s : State, legal s.cfg → s.hostSilent → s.run = true → s.st ≠ .reserved →
    let u : State := { s with inbox := s.inbox.tail }
    let L := s.len.toNat
    let avail := (s.wr - s.rd).toNat
    let needDelim := L + 2 + max s.cfg.edgeHalf 10
    let needMan := max (2 * L + 2) (max (L + 6) (L + 2 + s.cfg.edgeHalf))
    let short :=
      s.st = .preamble ∧ avail < L ∨ s.st = .delimiter ∧ avail < needDelim ∨
      s.st = .data ∧ s.cfg.strategy = .nrz ∧ avail < L + 1 ∨
      s.st = .data ∧ s.cfg.strategy = .man ∧ avail < needMan
    (s.st = .preamble → L ≤ avail → step s = exec .pre u) ∧
    (s.st = .delimiter → needDelim ≤ avail → step s = exec .delim u) ∧
    (s.st = .data → s.cfg.strategy = .nrz → L + 1 ≤ avail → step s = exec .dataNrz u) ∧
    (s.st = .data → s.cfg.strategy = .man → needMan ≤ avail → step s = exec .dataMan u) ∧
    (short → s.rawIdx < s.cfg.rawCap → step s = exec .unpack u) ∧
    (short → s.cfg.rawCap ≤ s.rawIdx → step s = exec .exhaust u)

/-- 40_window_unpack.md R72: with RUN = 0 and no command of the host, no state changes but the model's own
slot. That this is a step at all is the model's choice (log 16). -/
def Obligations.IdleBlockStays : Prop :=
  ∀ s : State, legal s.cfg → s.hostSilent → s.run = false →
    step s = .next { s with inbox := s.inbox.tail }

/-- 70_reset_and_hazards.md R206: while RUN = 1 a command other than RESET does nothing, and is lost:
it takes one slot of the model's schedule with it (log 2). -/
def Obligations.CommandsDuringDecodeAreLost : Prop :=
  ∀ (s : State) (i : Instr), legal s.cfg → s.run = true → s.hostIssues i → i.wellFormed s.cfg = true →
    i ≠ .reset → step s = .next { s with inbox := s.inbox.tail }

/-- 70_reset_and_hazards.md R208, 00_scope.md R9 and R10: a configuration is refused exactly where it breaks a
range of R9 or one of K1 to K9, written out (that the refusal is the step's is the model's choice, log 14). -/
def Obligations.IllegalParametersAreRefused : Prop :=
  ∀ s : State,
    let c := s.cfg
    let ranges :=
      4 ≤ c.nominalBitlen ∧ c.nominalBitlen ≤ 10 ∧ 1 ≤ c.delimLen ∧ c.delimLen ≤ 15 ∧
      1 ≤ c.edgeHalf ∧ c.edgeHalf ≤ 4 ∧ 1 ≤ c.edgeMin ∧ c.edgeMin ≤ 2 * c.edgeHalf ∧
      1 ≤ c.minDist ∧ c.minDist ≤ 31 ∧ 1 ≤ c.stuffThresh ∧ c.stuffThresh ≤ 5 - 1 ∧
      8 * c.frameSize ≤ c.maxBits ∧ 3 ≤ c.frameSize ∧ 1 ≤ c.rawCap ∧ 1 ≤ c.rssiHold
    let k1 := c.edgeHalf + 2 ≤ c.nominalBitlen ∧ c.nominalBitlen ≤ 10
    let k2 := c.nominalBitlen + 2 + max c.edgeHalf 10 ≤ 32 - 8
    let k3 := 2 * 10 + 2 ≤ 32 - 8
    let k4 := c.minDist ≤ c.delimLen * (c.nominalBitlen - 2)
    let k5 := c.delimLen * (c.nominalBitlen + 2) < 32 + c.minDist
    let k6 := c.edgeHalf + 2 ≤ c.minDist / c.delimLen
    let k7 := 1 ≤ c.stuffThresh ∧ c.stuffThresh < 5
    let k8 := 3 ≤ c.frameSize ∧ 8 * c.frameSize ≤ c.maxBits
    let k9 := 1 ≤ c.edgeMin ∧ c.edgeMin ≤ 2 * c.edgeHalf
    let meets := ranges ∧ k1 ∧ k2 ∧ k3 ∧ k4 ∧ k5 ∧ k6 ∧ k7 ∧ k8 ∧ k9
    (legal c ↔ meets) ∧ (step s = .refused .illegalParameters ↔ ¬ meets)

/-! ## The operations without samples -/

/-- 30_encoding.md R67 and 45_host_ops.md R158: NOP and the reserved codes change nothing; nor does IDLE
(40_window_unpack.md R72), and that IDLE is an operation with a next state is the model's choice (log 16). -/
def Obligations.NopAndReservedCodesChangeNothing : Prop :=
  CodeOf 0 (fun _ _ => .nop) ∧ CodeOf 5 (fun _ _ => .reserved5) ∧ CodeOf 6 (fun _ _ => .reserved6) ∧
  CodeOf 7 (fun _ _ => .reserved7) ∧
  ∀ s : State, exec .nop s = .next s ∧ exec .reserved5 s = .next s ∧ exec .reserved6 s = .next s ∧
    exec .reserved7 s = .next s ∧ exec .idle s = .next s

/-- 40_window_unpack.md R71 and 60_exceptions.md R183: EXHAUST writes RESULT and RUN, nothing else. -/
def Obligations.ExhaustHaltsAndKeepsTheRest : Prop :=
  Selects 0x38 0x20 .exhaust ∧
  ∀ s : State, exec .exhaust s = .next { s with result := .abortExhausted, run := false }

/-- 60_exceptions.md R188: ILLEGAL halts with FAULT_ILLEGAL, and a legal block in the reserved STATE runs it. -/
def Obligations.IllegalHaltsWithItsCode : Prop :=
  Selects 0x33 0x33 .illegal ∧
  (∀ s : State, exec .illegal s = .next { s with result := .faultIllegal, run := false }) ∧
  ∀ s : State, legal s.cfg → s.hostSilent → s.run = true → s.st = .reserved →
    step s = .next { s with inbox := s.inbox.tail, result := .faultIllegal, run := false }

/-- 40_window_unpack.md R70: the eight samples, the two cursors, nothing else. -/
def Obligations.UnpackMovesOneByteIntoTheWindow : Prop :=
  Selects 0x38 0x28 .unpack ∧
  ∀ s : State, s.rawIdx < s.cfg.rawCap →
    ∃ t, exec .unpack s = .next t ∧
      (∀ k, k < 8 → winRead t.win (s.wr + BitVec.ofNat 5 k) = (s.raw.read s.rawIdx).getLsbD k) ∧
      (∀ i : Cursor, (∀ k, k < 8 → i ≠ s.wr + BitVec.ofNat 5 k) → winRead t.win i = winRead s.win i) ∧
      t.wr = s.wr + 8 ∧ t.rawIdx = s.rawIdx + 1 ∧
      t = { s with win := t.win, wr := t.wr, rawIdx := t.rawIdx } ∧ SameBytes s t

/-- 20_memory.md R31: no RAW byte at or beyond RAW_CAP is read; there the model faults (log 13). -/
def Obligations.UnpackBeyondRawFaults : Prop :=
  ∀ s : State, s.cfg.rawCap ≤ s.rawIdx → exec .unpack s = .fault .rawRange

/-! ## Votes and edges -/

/-- 41_sync_clock.md R80: the vote is 1 exactly when at least half of the `n` samples are ones. -/
def Obligations.VoteIsMajorityWithTiesUp : Prop :=
  ∀ (w : Window) (i : Cursor) (n : Nat), n ≤ 10 →
    maj n = (n + 1) / 2 ∧ (vote w i n = true ↔ n ≤ 2 * ones w i n) ∧ ones w i n ≤ n ∧
    ones w i 0 = 0 ∧ ones w i (n + 1) = ones w i n + (winRead w (i + BitVec.ofNat 5 n)).toNat

/-- 41_sync_clock.md R82: the score is the sum of its `2 * EDGE_HALF` conditions, two for each distance; it is the
maximum exactly at a clean edge, and a flat line scores half of it. -/
def Obligations.EdgeScoreIsFullExactlyAtCleanEdge : Prop :=
  ∀ (h : Nat) (w : Window) (p : Cursor) (q : Bool),
    edgeScore 0 w p q = 0 ∧
    edgeScore (h + 1) w p q =
      edgeScore h w p q + (if winRead w (p - BitVec.ofNat 5 (h + 1)) = q then 1 else 0) +
        (if winRead w (p + BitVec.ofNat 5 h) = !q then 1 else 0) ∧
    edgeScore h w p q ≤ 2 * h ∧
    (edgeScore h w p q = 2 * h ↔
      ∀ k, k < h → winRead w (p - BitVec.ofNat 5 (k + 1)) = q ∧ winRead w (p + BitVec.ofNat 5 k) = !q) ∧
    (∀ b, (∀ k, k < h → winRead w (p - BitVec.ofNat 5 (k + 1)) = b ∧ winRead w (p + BitVec.ofNat 5 k) = b) →
      edgeScore h w p q = h)

/-- 41_sync_clock.md R83: the best of the five candidates, a tie to the earliest; and which samples are read. -/
def Obligations.BestEdgeIsEarliestOfTheBest : Prop :=
  ∀ (h : Nat) (w : Window) (base : Cursor) (q : Bool),
    let best := bestEdge h w base q
    let score := fun o : Int => edgeScore h w (base + BitVec.ofInt 5 o) q
    (-2 ≤ best.1 ∧ best.1 ≤ 2) ∧ best.2 = score best.1 ∧
    (∀ o : Int, -2 ≤ o → o ≤ 2 → score o ≤ best.2 ∧ (o < best.1 → score o < best.2)) ∧
    (∀ w' : Window,
      (∀ j : Int, -2 - (h : Int) ≤ j → j ≤ 1 + (h : Int) →
        winRead w' (base + BitVec.ofInt 5 j) = winRead w (base + BitVec.ofInt 5 j)) →
      bestEdge h w' base q = best)

/-! ## PRE and DELIM -/

/-- 41_sync_clock.md R81: a hit when at least half of the `L` samples are ones, else a miss. -/
def Obligations.PreVotesOneBitPeriod : Prop :=
  Selects 0x33 0x30 .pre ∧
  ∀ s : State, s.mayConsume s.cfg.strategy .preamble →
    exec .pre s = .next
      (if s.bitLen ≤ 2 * ones s.win s.rd s.bitLen then
        { s with st := .delimiter, pol := true, locked := false, cnt := 0 }
      else { s with rd := s.rd + BitVec.ofNat 5 s.bitLen })

/-- 41_sync_clock.md R84 with R86 to R92: hunt, abort, lock, counted edge, and the last edge with its
measurement, range check and guard skip. -/
def Obligations.DelimFollowsTheScorer : Prop :=
  Selects 0x33 0x31 .delim ∧
  ∀ s : State, s.mayConsume s.cfg.strategy .delimiter → s.cfg.edgeHalf + 2 ≤ s.bitLen →
    let edge := bestEdge s.cfg.edgeHalf s.win (s.rd + BitVec.ofNat 5 s.bitLen) s.pol
    let rd := s.rd + BitVec.ofNat 5 s.bitLen + BitVec.ofInt 5 edge.1
    let apparent := (rd - s.delimStart).toNat
    let newL := (if apparent < s.cfg.minDist then apparent + 32 else apparent) / s.cfg.delimLen
    exec .delim s = .next
      (if edge.2 < s.cfg.edgeMin then
        if s.locked then { s with result := .abortBadDelimiter, run := false } else { s with rd := s.rd + 1 }
      else if s.locked = false then { s with rd := rd, pol := !s.pol, locked := true, delimStart := rd }
      else if (s.cnt + 1).toNat ≠ s.cfg.delimLen then { s with rd := rd, pol := !s.pol, cnt := s.cnt + 1 }
      else if newL < 1 ∨ 10 < newL then
        { s with rd := rd, pol := !s.pol, cnt := s.cnt + 1, result := .abortBadDelimiter, run := false }
      else
        { s with
          rd := rd + BitVec.ofNat 5 newL, pol := !s.pol, cnt := s.cnt + 1
          len := BitVec.ofNat 4 newL, st := .data, bitIdx := 0, zeroRun := 0 })

/-- 00_scope.md R10 (K4, K5) and 41_sync_clock.md R90: for a bit length within 2 samples of nominal the wrap
correction recovers it exactly, wherever the lock was. -/
def Obligations.WrapCorrectionRecoversBitLength : Prop :=
  ∀ (c : Config) (start : Cursor) (b : Nat), legal c → c.nominalBitlen ≤ b + 2 → b ≤ c.nominalBitlen + 2 →
    measuredLength c (start + BitVec.ofNat 5 (c.delimLen * b)) start = b

/-- 00_scope.md R10 (K6) and 41_sync_clock.md R91: no measured length lets the scorer read behind `rd`. -/
def Obligations.MeasuredLengthKeepsScorerAhead : Prop :=
  ∀ (c : Config) (rd start : Cursor), legal c → c.edgeHalf + 2 ≤ measuredLength c rd start

/-! ## The bit decoders -/

/-- 42_decoders.md R100 with R101 to R103, and 43_assembler.md R121, R123: the decided bit, the resync, the
cursor, what the assembler stores, and when the validator runs. -/
def Obligations.DataNrzDecidesResyncsAndAssembles : Prop :=
  Selects 0x37 0x32 .dataNrz ∧
  ∀ s : State, s.mayConsume .nrz .data →
    let v := decide (s.bitLen ≤ 2 * ones s.win s.rd s.bitLen)
    let first := s.ahead 0
    let past := s.ahead s.bitLen
    let adj : Cursor := if first = v then 0 else if past ≠ v then -1 else 1
    let rd := s.rd + BitVec.ofNat 5 s.bitLen + adj
    let stuffed := v = true ∧ s.cfg.stuffThresh ≤ s.zeroRun.toNat
    let eof := v = false ∧ 5 ≤ (s.zeroRun + 1).toNat
    let zeroRun := if v then 0 else s.zeroRun + 1
    let t : State :=
      if stuffed ∨ eof then { s with rd := rd, zeroRun := zeroRun }
      else { s with rd := rd, zeroRun := zeroRun, acc := s.acc.set s.bitIdx v, bitIdx := s.bitIdx + 1 }
    (s.bitIdx < s.cfg.maxBits ∨ s.bitIdx = s.cfg.maxBits ∧ (stuffed ∨ eof)) →
      exec .dataNrz s = .next (if eof ∨ s.cfg.maxBits ≤ t.bitIdx then t.validate else t)

/-- 42_decoders.md R104 with R105 to R107, and 43_assembler.md R122, R123. -/
def Obligations.DataManComparesHalvesAndAssembles : Prop :=
  Selects 0x37 0x36 .dataMan ∧
  ∀ s : State, s.mayConsume .man .data →
    let a := ones s.win s.rd 6
    let b := ones s.win (s.rd + BitVec.ofNat 5 s.bitLen) 6
    let v := decide (b < a)
    let silent := (a = 6 ∧ b = 6) ∨ (a = 0 ∧ b = 0)
    let edge := bestEdge s.cfg.edgeHalf s.win (s.rd + BitVec.ofNat 5 s.bitLen) v
    let t : State :=
      { s with
        manOver := false
        rd := s.rd + BitVec.ofNat 5 (2 * s.bitLen) + BitVec.ofInt 5 edge.1
        acc := s.acc.set s.bitIdx v, bitIdx := s.bitIdx + 1 }
    (silent → s.bitIdx ≤ s.cfg.maxBits →
      exec .dataMan s = .next ({ s with manOver := true } : State).validate) ∧
    (¬ silent → s.bitIdx < s.cfg.maxBits → s.cfg.edgeHalf + 2 ≤ s.bitLen →
      exec .dataMan s = .next (if s.cfg.maxBits ≤ s.bitIdx + 1 then t.validate else t))

/-- 42_decoders.md R101, R103, 43_assembler.md R121: a clean NRZ symbol is decided as its level, moves the cursor
by exactly `L`, and is stored unless it is a stuffed 1 or ends the frame. -/
def Obligations.CleanNrzSymbolIsStoredWithoutResync : Prop :=
  ∀ (s : State) (b : Bool), s.mayConsume .nrz .data → s.bitIdx + 1 < s.cfg.maxBits →
    (∀ k, k < s.bitLen → s.ahead k = b) →
    (b = true → s.zeroRun.toNat < s.cfg.stuffThresh) → (b = false → (s.zeroRun + 1).toNat < 5) →
    exec .dataNrz s = .next
      { s with
        rd := s.rd + BitVec.ofNat 5 s.bitLen
        zeroRun := if b then 0 else s.zeroRun + 1
        acc := s.acc.set s.bitIdx b, bitIdx := s.bitIdx + 1 }

/-- 42_decoders.md R105, R106: a bit whose two half-bit groups are clean and opposite is stored as the first
group's level and never sets `over`. -/
def Obligations.CleanManchesterBitNeverEndsTheFrame : Prop :=
  ∀ (s : State) (q : Bool), s.mayConsume .man .data → s.cfg.edgeHalf + 2 ≤ s.bitLen →
    s.bitIdx + 1 < s.cfg.maxBits →
    (∀ k, k < 6 → s.ahead k = q ∧ s.ahead (s.bitLen + k) = !q) →
    ∃ rd, exec .dataMan s = .next
      { s with manOver := false, rd := rd, acc := s.acc.set s.bitIdx q, bitIdx := s.bitIdx + 1 }

/-- 70_reset_and_hazards.md R204, U2, U4: where a consumer step stops: a bit length outside 1..10 is refused,
a missing lookahead or a scorer behind the cursor faults (log 11, log 12). -/
def Obligations.ConsumerStepsStopOutsideTheirConditions : Prop :=
  ∀ s : State,
    (s.bitLen < 1 ∨ 10 < s.bitLen →
      exec .pre s = .refused .bitLength ∧ exec .delim s = .refused .bitLength ∧
      exec .dataNrz s = .refused .bitLength ∧ exec .dataMan s = .refused .bitLength) ∧
    (1 ≤ s.bitLen → s.bitLen ≤ 10 →
      (s.avail < s.bitLen → exec .pre s = .fault .lookahead) ∧
      (s.avail < s.bitLen + 2 + max s.cfg.edgeHalf 10 → exec .delim s = .fault .lookahead) ∧
      (s.avail < s.bitLen + 1 → exec .dataNrz s = .fault .lookahead) ∧
      (s.avail < max (2 * s.bitLen + 2) (max (s.bitLen + 6) (s.bitLen + 2 + s.cfg.edgeHalf)) →
        exec .dataMan s = .fault .lookahead)) ∧
    (s.mayConsume s.cfg.strategy .delimiter → s.bitLen < s.cfg.edgeHalf + 2 →
      exec .delim s = .fault .behindCursor)

/-- 20_memory.md R41 and R35, U4: where a DATA step with its lookahead stops: it would store at or beyond
`MAX_BITS`, or validate beyond it (log 13), or its scorer would read behind the cursor (log 12). -/
def Obligations.DataStepsStopOutsideTheirConditions : Prop :=
  ∀ s : State,
    let v := decide (s.bitLen ≤ 2 * ones s.win s.rd s.bitLen)
    let stored := if v then s.zeroRun.toNat < s.cfg.stuffThresh else (s.zeroRun + 1).toNat < 5
    let a := ones s.win s.rd 6
    let b := ones s.win (s.rd + BitVec.ofNat 5 s.bitLen) 6
    let silent := (a = 6 ∧ b = 6) ∨ (a = 0 ∧ b = 0)
    (s.mayConsume .nrz .data → s.cfg.maxBits < s.bitIdx ∨ s.bitIdx = s.cfg.maxBits ∧ stored →
      exec .dataNrz s = .fault .accRange) ∧
    (s.mayConsume .man .data → s.cfg.maxBits < s.bitIdx ∨ s.bitIdx = s.cfg.maxBits ∧ ¬ silent →
      exec .dataMan s = .fault .accRange) ∧
    (s.mayConsume .man .data → ¬ silent → s.bitIdx < s.cfg.maxBits → s.bitLen < s.cfg.edgeHalf + 2 →
      exec .dataMan s = .fault .behindCursor)

/-! ## The validator and the checksums -/

/-- 44_validator.md R130 with R131 to R136: truncation, error correction if configured, length, checksum, in this
order; the frame is written only when every check passes, and nothing else is touched. The error-correction function
is open, any function (log 8), and that `nbytes` takes the length of its output whole is the model's reading (log 9). -/
def Obligations.ValidateChecksInOrder : Prop :=
  ∀ s : State, s.frameOut.wf →
    let whole := (List.range (s.bitIdx / 8)).map (accByte s.cfg s.acc)
    let decoded := if s.cfg.eccEnable then Config.eccDecode whole else some whole
    match decoded with
    | none => s.validate = { s with nbytes := s.bitIdx / 8, result := .rejectEcc, run := false }
    | some frame =>
      let field := if s.cfg.crcLittleEndian
        then frame.getD (s.cfg.frameSize - 1) 0 ++ frame.getD (s.cfg.frameSize - 2) 0
        else frame.getD (s.cfg.frameSize - 2) 0 ++ frame.getD (s.cfg.frameSize - 1) 0
      if frame.length ≠ s.cfg.frameSize then
        s.validate = { s with nbytes := frame.length, result := .rejectLength, run := false }
      else if crc16 (frame.take (s.cfg.frameSize - 2)) s.cfg.crc16Init ≠ field then
        s.validate = { s with nbytes := frame.length, result := .rejectChecksum, run := false }
      else
        (∀ i, i < s.cfg.frameSize → s.validate.frameOut.read i = frame.getD i 0) ∧
        (∀ i, s.cfg.frameSize ≤ i → s.validate.frameOut.read i = s.frameOut.read i) ∧
        s.validate =
          { s with
            nbytes := frame.length, frameOut := s.validate.frameOut
            result := .frameValid, run := false }

/-- 30_encoding.md R56: which bit of a byte each cell of the accumulator is. -/
def Obligations.AccByteFollowsBitOrder : Prop :=
  ∀ (c : Config) (acc : List Bool) (i j : Nat), j < 8 →
    (c.payloadMsbFirst = true → (accByte c acc i).getLsbD (7 - j) = acc.getD (8 * i + j) false) ∧
    (c.payloadMsbFirst = false → (accByte c acc i).getLsbD j = acc.getD (8 * i + j) false)

/-- 44_validator.md R140: the byte-wise and the bit-wise form agree; the check value is 0x2189. The
correction lines of R137 are the spec's from general knowledge (log 17). -/
def Obligations.CrcFormsAgree : Prop :=
  (∀ (acc : BitVec 16) (b : Byte), crc16Add acc b = crc16AddSerial acc b) ∧
  crc16 [0x31, 0x32, 0x33, 0x34, 0x35, 0x36, 0x37, 0x38, 0x39] 0 = 0x2189

/-- 44_validator.md R135: a frame that passes the checks is accepted, and with any one bit of it flipped, in the
payload or in the checksum field, it is rejected and `FRAME_OUT` stays. The checksum routine is the spec's from
general knowledge (log 17). -/
def Obligations.SingleBitFlipIsRejected : Prop :=
  ∀ (s : State) (frame : List Byte) (i k : Nat), 3 ≤ s.cfg.frameSize → frame.length = s.cfg.frameSize →
    frameChecksum s.cfg frame = frameField s.cfg frame → i < s.cfg.frameSize → k < 8 →
    let flipped := frame.set i (frame.getD i 0 ^^^ (1#8 <<< k))
    (s.checkFrame frame).result = .frameValid ∧
    s.checkFrame flipped = { s with nbytes := s.cfg.frameSize, result := .rejectChecksum, run := false }

/-- 44_validator.md R136, 46_downstream_boundary.md R170: a step of the block that ends FRAME_VALID leaves in
`FRAME_OUT` a frame of `FRAME_SIZE` bytes whose checksum is right. -/
def Obligations.FrameValidMeansCheckedFrame : Prop :=
  ∀ s t : State, s.frameOut.wf → s.run = true → s.result ≠ .frameValid → step s = .next t →
    t.result = .frameValid →
    ∃ frame, t.frameRead = some frame ∧ frame.length = s.cfg.frameSize ∧
      frameChecksum s.cfg frame = frameField s.cfg frame ∧ t.nbytes = s.cfg.frameSize

/-- 30_encoding.md R60 and 60_exceptions.md R182: the eight codes of RESULT, each outcome with its own, and what the
host reads after RESET and after the two halts that are operations of their own. -/
def Obligations.ResultReadsAsItsCode : Prop :=
  (∀ s : State, s.resultRead =
    match s.result with
    | .none => 0 | .frameValid => 1 | .abortExhausted => 2 | .abortBadDelimiter => 3
    | .rejectEcc => 4 | .rejectLength => 5 | .rejectChecksum => 6 | .faultIllegal => 7) ∧
  (∀ r r' : Result, resultCode r = resultCode r' → r = r') ∧
  ∀ s : State,
    (∃ t, exec .reset s = .next t ∧ t.resultRead = 0) ∧
    (∃ t, exec .exhaust s = .next t ∧ t.resultRead = 2) ∧
    (∃ t, exec .illegal s = .next t ∧ t.resultRead = 7)

/-! ## The host's commands -/

/-- 45_host_ops.md R153: GATE. -/
def Obligations.GateCountsReadingsAboveThreshold : Prop :=
  CodeOf 2 (fun rssi _ => .gate rssi) ∧
  ∀ (s : State) (rssi : Nat), s.run = false →
    (s.cfg.rssiThresh < rssi → s.gateCnt < s.cfg.rssiHold →
      exec (.gate rssi) s = .next { s with gateCnt := s.gateCnt + 1 }) ∧
    (s.cfg.rssiThresh < rssi → s.cfg.rssiHold ≤ s.gateCnt → exec (.gate rssi) s = .next s) ∧
    (rssi ≤ s.cfg.rssiThresh → exec (.gate rssi) s = .next { s with gateCnt := 0 })

/-- 45_host_ops.md R154: CAPTURE fills RAW, sample `8i + k` in bit `k` of byte `i`, and closes the gate.
That the samples stand packed eight to a byte beside the host code is the model's choice (log 5). -/
def Obligations.CaptureFillsRawInSampleOrder : Prop :=
  CodeOf 3 (fun _ line => .capture (unpackSamples line)) ∧
  ∀ (s : State) (samples : List Bool), s.raw.wf → s.run = false → s.gateCnt = s.cfg.rssiHold →
    samples.length = 8 * s.cfg.rawCap →
    ∃ t, exec (.capture samples) s = .next t ∧
      (∀ i k, i < s.cfg.rawCap → k < 8 → (t.raw.read i).getLsbD k = samples.getD (8 * i + k) false) ∧
      (∀ i, s.cfg.rawCap ≤ i → t.raw.read i = s.raw.read i) ∧
      (∀ a, t.frameOut.read a = s.frameOut.read a) ∧
      t = { s with raw := t.raw, rawLoaded := true, gateCnt := 0 }

/-- 45_host_ops.md R155: START. -/
def Obligations.StartInitialisesTheDecode : Prop :=
  CodeOf 4 (fun _ _ => .start) ∧
  ∀ s : State, s.run = false → s.rawLoaded = true →
    exec .start s = .next
      { s with
        rawIdx := 0, wr := 0, rd := 0, win := 0, acc := List.replicate s.cfg.maxBits false
        len := BitVec.ofNat 4 s.cfg.nominalBitlen, st := .preamble
        pol := true, locked := false, cnt := 0, delimStart := 0
        bitIdx := 0, zeroRun := 0, manOver := false, nbytes := 0, result := .none, run := true }

/-- 45_host_ops.md R157 and the column "after RESET" of 10_state.md R28; that RAW and FRAME_OUT keep their
unspecified bytes is read from R157's "not cleared" (log 7). -/
def Obligations.ResetInitialisesEveryRegister : Prop :=
  CodeOf 1 (fun _ _ => .reset) ∧
  ∀ s : State, exec .reset s = .next { State.resetOf s.cfg with inbox := s.inbox, raw := s.raw, frameOut := s.frameOut }

/-- 45_host_ops.md R150: a command that is not legal changes no state. -/
def Obligations.IllegalCommandsChangeNothing : Prop :=
  ∀ s : State,
    (∀ rssi, s.run = true → exec (.gate rssi) s = .next s) ∧
    (∀ samples, samples.length = 8 * s.cfg.rawCap → s.run = true ∨ s.gateCnt ≠ s.cfg.rssiHold →
      exec (.capture samples) s = .next s) ∧
    (s.run = true ∨ s.rawLoaded = false → exec .start s = .next s) ∧
    exec .reserved5 s = .next s ∧ exec .reserved6 s = .next s ∧ exec .reserved7 s = .next s

/-- 45_host_ops.md R154: there is no CAPTURE of another size; the model refuses the term (log 15). -/
def Obligations.CaptureOfAnotherSizeIsRefused : Prop :=
  ∀ (s : State) (samples : List Bool), samples.length ≠ 8 * s.cfg.rawCap →
    exec (.capture samples) s = .refused .captureSize

/-- 30_encoding.md R69, 70_reset_and_hazards.md R202: the schedule of ACQUIRE, from the reset state of a legal
block, loads the burst and leaves the block running from PREAMBLE (the schedule's form: log 2, log 5). -/
def Obligations.AcquireStartsADecode : Prop :=
  ∀ (c : Config) (rssi : Nat) (line : List Byte), legal c → c.rssiThresh < rssi → line.length = c.rawCap →
    ∃ t, Sys2Proof.core.run (c.rssiHold + 2) { State.resetOf c with inbox := acquire c rssi line } = .next t ∧
      t.run = true ∧ t.st = .preamble ∧ t.rawLoaded = true ∧ t.inbox = [] ∧
      ∀ i, i < c.rawCap → t.raw.read i = line.getD i 0

/-! ## Invariants and rules of the whole machine -/

/-- The invariant holds after reset, for every legal block, and so for `State.reset`. -/
def Obligations.InvariantHoldsAtReset : Prop :=
  (∀ c : Config, legal c → Inv (State.resetOf c)) ∧ Inv State.reset

/-- Every step keeps the invariant. -/
def Obligations.EveryStepKeepsTheInvariant : Prop :=
  ∀ s t : State, Inv s → step s = .next t → Inv t

/-- 20_memory.md R35, R41, 70_reset_and_hazards.md R203, R204, 60_exceptions.md R195: no state that meets the
invariant stops: every step with a well-formed operation has a next state. -/
def Obligations.LegalRunNeverStops : Prop :=
  ∀ s : State, Inv s → (∀ i, s.hostIssues i → i.wellFormed s.cfg = true) → ∃ t, step s = .next t

/-- 20_memory.md R40: no demand exceeds 24; an UNPACK finds at most 23 samples of lookahead and adds exactly 8;
a consumer step never takes more than there are; so the lookahead never wraps. -/
def Obligations.RingIsNeverOverrun : Prop :=
  ∀ s t : State, Inv s → s.hostSilent → s.run = true → step s = .next t →
    s.need ≤ 24 ∧
    (s.avail < s.need → s.rawIdx < s.cfg.rawCap → s.avail ≤ 23 ∧ t.avail = s.avail + 8) ∧
    (s.need ≤ s.avail → t.avail ≤ s.avail ∧ s.avail ≤ t.avail + s.need ∧
      t.rd = s.rd + BitVec.ofNat 5 (s.avail - t.avail))

/-- 20_memory.md R35: a consumer step looks at nothing but the `Need` samples ahead of the read cursor: with any
other samples elsewhere in the window it does the same. -/
def Obligations.ConsumerReadsOnlyItsLookahead : Prop :=
  ∀ (s : State) (w : Window) (i : Instr) (n : Nat),
    (i = .pre ∧ n = s.bitLen ∨
      i = .delim ∧ n = s.bitLen + 2 + max s.cfg.edgeHalf 10 ∨
      i = .dataNrz ∧ n = s.bitLen + 1 ∨
      i = .dataMan ∧ n = max (2 * s.bitLen + 2) (max (s.bitLen + 6) (s.bitLen + 2 + s.cfg.edgeHalf))) →
    (∀ k, k < n → winRead w (s.rd + BitVec.ofNat 5 k) = s.ahead k) →
    (∀ t, exec i s = .next t → exec i { s with win := w } = .next { t with win := w }) ∧
    (∀ r, exec i s = .fault r → exec i { s with win := w } = .fault r) ∧
    (∀ r, exec i s = .refused r → exec i { s with win := w } = .refused r)

/-- 41_sync_clock.md R95: while a decode goes on STATE only moves forward, by one at a time; nothing writes the
reserved code; PREAMBLE is entered only by START and RESET. -/
def Obligations.StateMovesForwardOnly : Prop :=
  ∀ s t : State, step s = .next t →
    (s.run = true → t.run = true →
      (syncCode s.st).toNat ≤ (syncCode t.st).toNat ∧ (syncCode t.st).toNat ≤ (syncCode s.st).toNat + 1) ∧
    (t.st = .reserved → s.st = .reserved) ∧
    (t.st = .preamble → s.st = .preamble ∨ s.hostIssues .start ∨ s.hostIssues .reset)

/-- 41_sync_clock.md R93: in DATA state `L` is never written. -/
def Obligations.BitLengthIsFixedInData : Prop :=
  ∀ s t : State, step s = .next t → s.st = .data → t.st = .data → t.len = s.len

/-- 20_memory.md R41: within a frame the accumulator only grows, by at most one cell a step, and no cell below
`bit_idx` changes. -/
def Obligations.AccumulatorIsAppendOnly : Prop :=
  ∀ s t : State, step s = .next t → s.st = .data → t.st = .data →
    s.bitIdx ≤ t.bitIdx ∧ t.bitIdx ≤ s.bitIdx + 1 ∧
    ∀ i, i < s.bitIdx → t.acc.getD i false = s.acc.getD i false

/-- 60_exceptions.md R181, 10_state.md R24: RUN rises only by START, and falls only by a halt, which records its
cause, or by RESET. -/
def Obligations.RunChangesOnlyByStartHaltAndReset : Prop :=
  ∀ s t : State, step s = .next t →
    (s.run = false → t.run = true → s.hostIssues .start ∧ s.rawLoaded = true ∧ t.result = .none) ∧
    (s.run = true → t.run = false → s.hostIssues .reset ∨ s.hostSilent ∧ t.result ≠ .none)

/-- 20_memory.md R30, R31, R42, 10_state.md R26: RAW is written by CAPTURE alone, with no decode in flight;
FRAME_OUT by a decode that ends FRAME_VALID alone; the parameters by nothing. -/
def Obligations.MemoriesHaveOneWriterEach : Prop :=
  ∀ s t : State, step s = .next t →
    t.cfg = s.cfg ∧
    (t.raw ≠ s.raw → s.run = false ∧ ∃ samples, s.hostIssues (.capture samples)) ∧
    (t.frameOut ≠ s.frameOut → s.run = true ∧ s.hostSilent ∧ t.run = false ∧ t.result = .frameValid)

/-- 70_reset_and_hazards.md R209: a decode that the host leaves alone halts after at most `9 * RAW_CAP + 3`
micro-operations, with a cause. -/
def Obligations.EveryDecodeHalts : Prop :=
  ∀ s t : State, Inv s → s.run = false → s.rawLoaded = true → s.inbox = [] → exec .start s = .next t →
    ∃ k u, k ≤ 9 * s.cfg.rawCap + 3 ∧ Sys2Proof.core.run k t = .next u ∧ u.run = false ∧ u.result ≠ .none

/-- 70_reset_and_hazards.md R209: every step of a running block that the host leaves alone ends the decode or leaves
less work: an UNPACK takes a raw byte for its eight samples, a consumer step takes samples, PRE hits once. -/
def Obligations.EveryRunningStepLeavesLessWork : Prop :=
  ∀ s t : State, Inv s → s.hostSilent → s.run = true → step s = .next t →
    t.run = false ∨ t.run = true ∧ t.workLeft < s.workLeft

/-- 45_host_ops.md R156, 70_reset_and_hazards.md R201: two blocks in the same place of the same decode stay so: what
one step of the first does, the second does too, and the relation holds again. -/
def Obligations.LockstepIsKeptByEveryStep : Prop :=
  ∀ s s' t : State, Lockstep s s' → s.hostSilent → step s = .next t →
    ∃ t', step s' = .next t' ∧ Lockstep t t'

/-- 45_host_ops.md R156, 70_reset_and_hazards.md R201: a decode is a function of RAW and the parameters: two
blocks with the same parameters and the same RAW, whatever they held before START, go through the same states,
but for `gate_cnt` and the old bytes of FRAME_OUT, and end with the same frame. -/
def Obligations.DecodeDependsOnRawAlone : Prop :=
  ∀ (s s' t t' u : State) (k : Nat),
    s.cfg = s'.cfg → s.raw = s'.raw → s.inbox = [] → s'.inbox = [] → s.frameOut.wf → s'.frameOut.wf →
    s.run = false → s'.run = false → s.rawLoaded = true → s'.rawLoaded = true →
    exec .start s = .next t → exec .start s' = .next t' → Sys2Proof.core.run k t = .next u →
    ∃ u', Sys2Proof.core.run k t' = .next u' ∧
      u' = { u with gateCnt := s'.gateCnt, frameOut := u'.frameOut } ∧ u'.frameRead = u.frameRead

/-! ## From the transmitter to the frame -/

/-- 30_encoding.md R55 and 43_assembler.md R121: the assembler undoes the stuffing: of the stuffed bits and the
terminal run it stores the bits and at most four zeros more, and signals the end of the frame. The
transmitter is the model's reference, outside the block (log 20). -/
def Obligations.AssemblerUndoesStuffing : Prop :=
  ∀ (c : Config) (bits : List Bool), legal c →
    ∃ zeros, zeros ≤ 4 ∧
      asmNrzAll c 0 (stuffFrom c.stuffThresh 0 bits ++ List.replicate 5 false) =
        (bits ++ List.replicate zeros false, 5, true)

/-- 30_encoding.md R52, R56, R57, R58 with 44_validator.md R130, R131: of the bits of a sent frame, with at most
seven more, the validator's bytes are the frame, and it accepts it. The transmitter is the model's reference, outside
the block (log 20). -/
def Obligations.SentFrameIsAccepted : Prop :=
  ∀ (s : State) (payload : List Byte) (rest : List Bool), s.frameOut.wf → s.cfg.eccEnable = false →
    3 ≤ s.cfg.frameSize → payload.length + 2 = s.cfg.frameSize → rest.length < 8 →
    let frame := frameOf s.cfg payload
    let acc := frameBits s.cfg frame ++ rest
    let t := ({ s with acc := acc, bitIdx := acc.length } : State).validate
    t.result = .frameValid ∧ t.run = false ∧ t.nbytes = s.cfg.frameSize ∧ t.frameRead = some frame
end

