-- ==== Sys2Proof/Laws/Bits.lean ====
section
/-! SUPPORT. Bits, bytes and samples: the small lemmas of Machine/Bits.lean. -/

namespace Sys2Proof.Machine

theorem ofBools_getLsbD (b0 b1 b2 b3 b4 b5 b6 b7 : Bool) :
    let x := BitVec.ofBool b7 ++ BitVec.ofBool b6 ++ BitVec.ofBool b5 ++ BitVec.ofBool b4 ++
      BitVec.ofBool b3 ++ BitVec.ofBool b2 ++ BitVec.ofBool b1 ++ BitVec.ofBool b0
    x.getLsbD 0 = b0 ∧ x.getLsbD 1 = b1 ∧ x.getLsbD 2 = b2 ∧ x.getLsbD 3 = b3 ∧
      x.getLsbD 4 = b4 ∧ x.getLsbD 5 = b5 ∧ x.getLsbD 6 = b6 ∧ x.getLsbD 7 = b7 := by
  revert b0 b1 b2 b3 b4 b5 b6 b7; decide

/-- Bit `k` of the assembled byte is `f k`. -/
@[simp] theorem byteOf_getLsbD (f : Nat → Bool) {k : Nat} (h : k < 8) : (byteOf f).getLsbD k = f k := by
  obtain ⟨h0, h1, h2, h3, h4, h5, h6, h7⟩ :=
    ofBools_getLsbD (f 0) (f 1) (f 2) (f 3) (f 4) (f 5) (f 6) (f 7)
  interval_cases k <;> assumption

/-- A byte is determined by its bits. -/
theorem byteOf_getLsbD_self (b : Byte) : byteOf b.getLsbD = b := by
  apply BitVec.eq_of_getLsbD_eq
  intro k hk
  exact byteOf_getLsbD _ hk

theorem byteOf_congr {f g : Nat → Bool} (h : ∀ k, k < 8 → f k = g k) : byteOf f = byteOf g := by
  simp [byteOf, h]

@[simp] theorem sampleBits_length (b : Byte) : (sampleBits b).length = 8 := rfl

@[simp] theorem sampleBits_getD (b : Byte) {k : Nat} (h : k < 8) :
    (sampleBits b).getD k false = b.getLsbD k := by
  interval_cases k <;> rfl

@[simp] theorem packSamples_length (n : Nat) (samples : List Bool) :
    (packSamples n samples).length = n := by
  simp [packSamples]

/-- Byte `i` of the packed samples holds samples `8i .. 8i+7`. -/
theorem packSamples_getD {n i : Nat} (samples : List Bool) (h : i < n) :
    (packSamples n samples).getD i 0 = byteOf fun k => samples.getD (8 * i + k) false := by
  simp [packSamples, h]

@[simp] theorem unpackSamples_nil : unpackSamples [] = [] := rfl

@[simp] theorem unpackSamples_cons (b : Byte) (bs : List Byte) :
    unpackSamples (b :: bs) = sampleBits b ++ unpackSamples bs := rfl

@[simp] theorem unpackSamples_length (bytes : List Byte) :
    (unpackSamples bytes).length = 8 * bytes.length := by
  induction bytes with
  | nil => rfl
  | cons b bs ih => simp [ih]; omega

/-- Sample `8i + k` of the unpacked bytes is bit `k` of byte `i`. -/
theorem unpackSamples_getD (bytes : List Byte) {i k : Nat} (hi : i < bytes.length) (hk : k < 8) :
    (unpackSamples bytes).getD (8 * i + k) false = (bytes.getD i 0).getLsbD k := by
  induction bytes generalizing i with
  | nil => simp at hi
  | cons b bs ih =>
    cases i with
    | zero =>
      rw [unpackSamples_cons, List.getD_append _ _ _ _ (by simpa using hk)]
      simpa using sampleBits_getD b hk
    | succ i =>
      rw [unpackSamples_cons, List.getD_append_right _ _ _ _ (by simp; omega)]
      have : 8 * (i + 1) + k - (sampleBits b).length = 8 * i + k := by simp; omega
      rw [this, ih (by simpa using hi)]
      simp

theorem countBelow_le (n : Nat) (p : Nat → Bool) : countBelow n p ≤ n := by
  induction n with
  | zero => simp [countBelow]
  | succ n ih => have := Bool.toNat_le (p n); simp only [countBelow]; omega

theorem countBelow_congr {n : Nat} {p q : Nat → Bool} (h : ∀ k, k < n → p k = q k) :
    countBelow n p = countBelow n q := by
  induction n with
  | zero => rfl
  | succ n ih =>
    simp only [countBelow]
    rw [ih fun k hk => h k (by omega), h n (by omega)]

theorem countBelow_all {n : Nat} {p : Nat → Bool} (h : ∀ k, k < n → p k = true) : countBelow n p = n := by
  induction n with
  | zero => rfl
  | succ n ih => simp [countBelow, ih fun k hk => h k (by omega), h n (by omega)]

theorem countBelow_none {n : Nat} {p : Nat → Bool} (h : ∀ k, k < n → p k = false) : countBelow n p = 0 := by
  induction n with
  | zero => rfl
  | succ n ih => simp [countBelow, ih fun k hk => h k (by omega), h n (by omega)]

end Sys2Proof.Machine
end

