-- ==== Sys2Proof/Laws/Memory.lean ====
section
/-! SUPPORT. The laws of the byte memories: read after write, and the canonical form is kept. -/

namespace Sys2Proof.Machine

@[simp] theorem Memory.read_nil (a : Nat) : Memory.read [] a = Memory.unlisted := rfl

theorem Memory.wf_nil : Memory.wf [] := by simp [Memory.wf]

theorem Memory.wf_tail {c : Host.Cell} {m : Memory} (h : Memory.wf (c :: m)) : Memory.wf m :=
  ⟨(List.pairwise_cons.1 h.1).2, fun d hd => h.2 d (List.mem_cons_of_mem _ hd)⟩

/-- An index that no entry has reads as unlisted. -/
theorem Memory.read_of_not_mem {m : Memory} {a : Nat} (h : ∀ c ∈ m, c.1 ≠ a) :
    Memory.read m a = Memory.unlisted := by
  induction m with
  | nil => rfl
  | cons c m ih =>
    have hc := h c (List.mem_cons_self ..)
    simp only [Memory.read, if_neg (Ne.symm hc)]
    exact ih fun d hd => h d (List.mem_cons_of_mem _ hd)

/-- A write leaves every other byte alone. -/
theorem Memory.read_write_other (m : Memory) {a x : Nat} (b : Byte) (h : x ≠ a) :
    (Memory.write m a b).read x = m.read x := by
  induction m with
  | nil => by_cases hb : b = Memory.unlisted <;> simp [Memory.write, Memory.read, hb, h]
  | cons c m ih =>
    obtain ⟨y, z⟩ := c
    by_cases h1 : a < y
    · by_cases hb : b = Memory.unlisted <;> simp [Memory.write, Memory.read, hb, h, h1]
    · by_cases h2 : a = y
      · subst h2
        by_cases hb : b = Memory.unlisted <;> simp [Memory.write, Memory.read, hb, h]
      · simp [Memory.write, Memory.read, h1, h2, ih]

/-- A read after a write to the same place gives the byte written. -/
theorem Memory.read_write_same {m : Memory} (hm : m.wf) (a : Nat) (b : Byte) :
    (Memory.write m a b).read a = b := by
  induction m with
  | nil => by_cases hb : b = Memory.unlisted <;> simp [Memory.write, Memory.read, hb]
  | cons c m ih =>
    obtain ⟨y, z⟩ := c
    have hlt := (List.pairwise_cons.1 hm.1).1
    have away : a ≤ y → Memory.read m a = Memory.unlisted := fun hay =>
      Memory.read_of_not_mem fun d hd e => by have := hlt d hd; simp only at this; omega
    by_cases h1 : a < y
    · by_cases hb : b = Memory.unlisted
      · have : a ≠ y := by omega
        simp [Memory.write, Memory.read, hb, h1, this, away (by omega)]
      · simp [Memory.write, Memory.read, hb, h1]
    · by_cases h2 : a = y
      · by_cases hb : b = Memory.unlisted
        · rw [Memory.write, if_neg h1, if_pos h2, if_pos hb, away (by omega), hb]
        · simp [Memory.write, Memory.read, hb, h2]
      · simp [Memory.write, Memory.read, h1, h2, ih (Memory.wf_tail hm)]

/-- Every entry after a write was there before or is the byte written. -/
theorem Memory.mem_write {m : Memory} {a : Nat} {b : Byte} {c : Host.Cell} (h : c ∈ Memory.write m a b) :
    c ∈ m ∨ (c = (a, b) ∧ b ≠ Memory.unlisted) := by
  induction m with
  | nil =>
    simp only [Memory.write] at h
    split at h <;> simp_all
  | cons d m ih =>
    obtain ⟨y, z⟩ := d
    simp only [Memory.write] at h
    split at h
    · split at h
      · exact .inl h
      · rcases List.mem_cons.1 h with h | h
        · exact .inr ⟨h, by assumption⟩
        · exact .inl h
    · split at h
      · split at h
        · exact .inl (List.mem_cons_of_mem _ h)
        · rcases List.mem_cons.1 h with h | h
          · exact .inr ⟨h, by assumption⟩
          · exact .inl (List.mem_cons_of_mem _ h)
      · rcases List.mem_cons.1 h with h | h
        · exact .inl (h ▸ List.mem_cons_self ..)
        · rcases ih h with h | h
          · exact .inl (List.mem_cons_of_mem _ h)
          · exact .inr h

/-- A write keeps the canonical form. -/
theorem Memory.write_wf {m : Memory} (hm : m.wf) (a : Nat) (b : Byte) : (Memory.write m a b).wf := by
  refine ⟨?_, fun c hc => ?_⟩
  · induction m with
    | nil => by_cases hb : b = Memory.unlisted <;> simp [Memory.write, hb]
    | cons d m ih =>
      obtain ⟨y, z⟩ := d
      obtain ⟨hlt, hp⟩ := List.pairwise_cons.1 hm.1
      simp only [Memory.write]
      split
      · split
        · exact hm.1
        · refine List.pairwise_cons.2 ⟨fun c hc => ?_, hm.1⟩
          rcases List.mem_cons.1 hc with hc | hc
          · subst hc; assumption
          · exact lt_trans ‹a < y› (hlt c hc)
      · split
        · subst_vars
          split
          · exact hp
          · exact List.pairwise_cons.2 ⟨hlt, hp⟩
        · refine List.pairwise_cons.2 ⟨fun c hc => ?_, ih (Memory.wf_tail hm)⟩
          rcases Memory.mem_write hc with hc | ⟨hc, -⟩
          · exact hlt c hc
          · subst hc; simp only; omega
  · rcases Memory.mem_write hc with hc | ⟨hc, hb⟩
    · exact hm.2 c hc
    · subst hc; exact hb

/-- A write inside the index range of a memory adds no index outside it. -/
theorem Memory.write_indices {m : Memory} {a n : Nat} {b : Byte} (hm : ∀ c ∈ m, c.1 < n) (ha : a < n) :
    ∀ c ∈ Memory.write m a b, c.1 < n := by
  intro c hc
  rcases Memory.mem_write hc with hc | ⟨hc, -⟩
  · exact hm c hc
  · subst hc; exact ha

/-- Writing a list of bytes keeps the canonical form. -/
theorem Memory.writeBytes_wf {m : Memory} (hm : m.wf) (a : Nat) (bs : List Byte) :
    (Memory.writeBytes m a bs).wf := by
  induction bs generalizing m a with
  | nil => exact hm
  | cons b bs ih => exact ih (Memory.write_wf hm a b) (a + 1)

theorem Memory.writeBytes_indices {m : Memory} {n : Nat} (bs : List Byte) {a : Nat}
    (hm : ∀ c ∈ m, c.1 < n) (ha : a + bs.length ≤ n) : ∀ c ∈ Memory.writeBytes m a bs, c.1 < n := by
  induction bs generalizing m a with
  | nil => exact hm
  | cons b bs ih =>
    simp only [List.length_cons] at ha
    exact ih (Memory.write_indices hm (by omega)) (by omega)

/-- Outside the bytes written, nothing changes. -/
theorem Memory.read_writeBytes_other (m : Memory) (bs : List Byte) {a x : Nat}
    (h : x < a ∨ a + bs.length ≤ x) : (Memory.writeBytes m a bs).read x = m.read x := by
  induction bs generalizing m a with
  | nil => rfl
  | cons b bs ih =>
    simp only [List.length_cons] at h
    rw [Memory.writeBytes, ih _ (by omega), Memory.read_write_other _ _ (by omega)]

/-- The bytes written are read back. -/
theorem Memory.read_writeBytes {m : Memory} (hm : m.wf) (bs : List Byte) {a i : Nat} (h : i < bs.length) :
    (Memory.writeBytes m a bs).read (a + i) = bs.getD i 0 := by
  induction bs generalizing m a i with
  | nil => simp at h
  | cons b bs ih =>
    cases i with
    | zero =>
      rw [Memory.writeBytes, Memory.read_writeBytes_other _ _ (by omega)]
      simpa using Memory.read_write_same hm a b
    | succ i =>
      have := ih (Memory.write_wf hm a b) (a := a + 1) (i := i) (by simpa using h)
      rw [Memory.writeBytes, show a + (i + 1) = a + 1 + i by omega, this]
      simp

/-- The whole of what was written is read back. -/
theorem Memory.readBytes_writeBytes {m : Memory} (hm : m.wf) (bs : List Byte) :
    (Memory.writeBytes m 0 bs).readBytes bs.length = bs := by
  apply List.ext_getElem
  · simp [Memory.readBytes]
  · intro i h1 h2
    have := Memory.read_writeBytes hm bs (a := 0) h2
    simp only [Nat.zero_add] at this
    simp [Memory.readBytes, this, h2]

end Sys2Proof.Machine
end

