-- ==== Sys2Proof/Laws/State.lean ====
section
/-! SUPPORT. One lemma per field per named update of State, each true by unfolding the update once. -/

namespace Sys2Proof.Machine

@[simp] theorem halt_cfg (s : State) (code : Result) : (s.halt code).cfg = s.cfg := rfl
@[simp] theorem halt_inbox (s : State) (code : Result) : (s.halt code).inbox = s.inbox := rfl
@[simp] theorem halt_raw (s : State) (code : Result) : (s.halt code).raw = s.raw := rfl
@[simp] theorem halt_win (s : State) (code : Result) : (s.halt code).win = s.win := rfl
@[simp] theorem halt_acc (s : State) (code : Result) : (s.halt code).acc = s.acc := rfl
@[simp] theorem halt_frameOut (s : State) (code : Result) : (s.halt code).frameOut = s.frameOut := rfl
@[simp] theorem halt_rawIdx (s : State) (code : Result) : (s.halt code).rawIdx = s.rawIdx := rfl
@[simp] theorem halt_wr (s : State) (code : Result) : (s.halt code).wr = s.wr := rfl
@[simp] theorem halt_rd (s : State) (code : Result) : (s.halt code).rd = s.rd := rfl
@[simp] theorem halt_len (s : State) (code : Result) : (s.halt code).len = s.len := rfl
@[simp] theorem halt_st (s : State) (code : Result) : (s.halt code).st = s.st := rfl
@[simp] theorem halt_pol (s : State) (code : Result) : (s.halt code).pol = s.pol := rfl
@[simp] theorem halt_locked (s : State) (code : Result) : (s.halt code).locked = s.locked := rfl
@[simp] theorem halt_cnt (s : State) (code : Result) : (s.halt code).cnt = s.cnt := rfl
@[simp] theorem halt_delimStart (s : State) (code : Result) : (s.halt code).delimStart = s.delimStart := rfl
@[simp] theorem halt_bitIdx (s : State) (code : Result) : (s.halt code).bitIdx = s.bitIdx := rfl
@[simp] theorem halt_zeroRun (s : State) (code : Result) : (s.halt code).zeroRun = s.zeroRun := rfl
@[simp] theorem halt_manOver (s : State) (code : Result) : (s.halt code).manOver = s.manOver := rfl
@[simp] theorem halt_run (s : State) (code : Result) : (s.halt code).run = false := rfl
@[simp] theorem halt_result (s : State) (code : Result) : (s.halt code).result = code := rfl
@[simp] theorem halt_nbytes (s : State) (code : Result) : (s.halt code).nbytes = s.nbytes := rfl
@[simp] theorem halt_gateCnt (s : State) (code : Result) : (s.halt code).gateCnt = s.gateCnt := rfl
@[simp] theorem halt_resultRead (s : State) (code : Result) : (s.halt code).resultRead = resultCode code := rfl
@[simp] theorem halt_rawLoaded (s : State) (code : Result) : (s.halt code).rawLoaded = s.rawLoaded := rfl

@[simp] theorem nextSlot_cfg (s : State) : s.nextSlot.cfg = s.cfg := rfl
@[simp] theorem nextSlot_inbox (s : State) : s.nextSlot.inbox = s.inbox.tail := rfl
@[simp] theorem nextSlot_raw (s : State) : s.nextSlot.raw = s.raw := rfl
@[simp] theorem nextSlot_win (s : State) : s.nextSlot.win = s.win := rfl
@[simp] theorem nextSlot_acc (s : State) : s.nextSlot.acc = s.acc := rfl
@[simp] theorem nextSlot_frameOut (s : State) : s.nextSlot.frameOut = s.frameOut := rfl
@[simp] theorem nextSlot_rawIdx (s : State) : s.nextSlot.rawIdx = s.rawIdx := rfl
@[simp] theorem nextSlot_wr (s : State) : s.nextSlot.wr = s.wr := rfl
@[simp] theorem nextSlot_rd (s : State) : s.nextSlot.rd = s.rd := rfl
@[simp] theorem nextSlot_len (s : State) : s.nextSlot.len = s.len := rfl
@[simp] theorem nextSlot_st (s : State) : s.nextSlot.st = s.st := rfl
@[simp] theorem nextSlot_pol (s : State) : s.nextSlot.pol = s.pol := rfl
@[simp] theorem nextSlot_locked (s : State) : s.nextSlot.locked = s.locked := rfl
@[simp] theorem nextSlot_cnt (s : State) : s.nextSlot.cnt = s.cnt := rfl
@[simp] theorem nextSlot_delimStart (s : State) : s.nextSlot.delimStart = s.delimStart := rfl
@[simp] theorem nextSlot_bitIdx (s : State) : s.nextSlot.bitIdx = s.bitIdx := rfl
@[simp] theorem nextSlot_zeroRun (s : State) : s.nextSlot.zeroRun = s.zeroRun := rfl
@[simp] theorem nextSlot_manOver (s : State) : s.nextSlot.manOver = s.manOver := rfl
@[simp] theorem nextSlot_run (s : State) : s.nextSlot.run = s.run := rfl
@[simp] theorem nextSlot_result (s : State) : s.nextSlot.result = s.result := rfl
@[simp] theorem nextSlot_nbytes (s : State) : s.nextSlot.nbytes = s.nbytes := rfl
@[simp] theorem nextSlot_gateCnt (s : State) : s.nextSlot.gateCnt = s.gateCnt := rfl
@[simp] theorem nextSlot_rawLoaded (s : State) : s.nextSlot.rawLoaded = s.rawLoaded := rfl

@[simp] theorem store_cfg (s : State) (b : Bool) : (s.store b).cfg = s.cfg := rfl
@[simp] theorem store_inbox (s : State) (b : Bool) : (s.store b).inbox = s.inbox := rfl
@[simp] theorem store_raw (s : State) (b : Bool) : (s.store b).raw = s.raw := rfl
@[simp] theorem store_win (s : State) (b : Bool) : (s.store b).win = s.win := rfl
@[simp] theorem store_acc (s : State) (b : Bool) : (s.store b).acc = s.acc.set s.bitIdx b := rfl
@[simp] theorem store_frameOut (s : State) (b : Bool) : (s.store b).frameOut = s.frameOut := rfl
@[simp] theorem store_rawIdx (s : State) (b : Bool) : (s.store b).rawIdx = s.rawIdx := rfl
@[simp] theorem store_wr (s : State) (b : Bool) : (s.store b).wr = s.wr := rfl
@[simp] theorem store_rd (s : State) (b : Bool) : (s.store b).rd = s.rd := rfl
@[simp] theorem store_len (s : State) (b : Bool) : (s.store b).len = s.len := rfl
@[simp] theorem store_st (s : State) (b : Bool) : (s.store b).st = s.st := rfl
@[simp] theorem store_pol (s : State) (b : Bool) : (s.store b).pol = s.pol := rfl
@[simp] theorem store_locked (s : State) (b : Bool) : (s.store b).locked = s.locked := rfl
@[simp] theorem store_cnt (s : State) (b : Bool) : (s.store b).cnt = s.cnt := rfl
@[simp] theorem store_delimStart (s : State) (b : Bool) : (s.store b).delimStart = s.delimStart := rfl
@[simp] theorem store_bitIdx (s : State) (b : Bool) : (s.store b).bitIdx = s.bitIdx + 1 := rfl
@[simp] theorem store_zeroRun (s : State) (b : Bool) : (s.store b).zeroRun = s.zeroRun := rfl
@[simp] theorem store_manOver (s : State) (b : Bool) : (s.store b).manOver = s.manOver := rfl
@[simp] theorem store_run (s : State) (b : Bool) : (s.store b).run = s.run := rfl
@[simp] theorem store_result (s : State) (b : Bool) : (s.store b).result = s.result := rfl
@[simp] theorem store_nbytes (s : State) (b : Bool) : (s.store b).nbytes = s.nbytes := rfl
@[simp] theorem store_gateCnt (s : State) (b : Bool) : (s.store b).gateCnt = s.gateCnt := rfl
@[simp] theorem store_rawLoaded (s : State) (b : Bool) : (s.store b).rawLoaded = s.rawLoaded := rfl

@[simp] theorem preHit_cfg (s : State) : s.preHit.cfg = s.cfg := rfl
@[simp] theorem preHit_inbox (s : State) : s.preHit.inbox = s.inbox := rfl
@[simp] theorem preHit_raw (s : State) : s.preHit.raw = s.raw := rfl
@[simp] theorem preHit_win (s : State) : s.preHit.win = s.win := rfl
@[simp] theorem preHit_acc (s : State) : s.preHit.acc = s.acc := rfl
@[simp] theorem preHit_frameOut (s : State) : s.preHit.frameOut = s.frameOut := rfl
@[simp] theorem preHit_rawIdx (s : State) : s.preHit.rawIdx = s.rawIdx := rfl
@[simp] theorem preHit_wr (s : State) : s.preHit.wr = s.wr := rfl
@[simp] theorem preHit_rd (s : State) : s.preHit.rd = s.rd := rfl
@[simp] theorem preHit_len (s : State) : s.preHit.len = s.len := rfl
@[simp] theorem preHit_st (s : State) : s.preHit.st = .delimiter := rfl
@[simp] theorem preHit_pol (s : State) : s.preHit.pol = true := rfl
@[simp] theorem preHit_locked (s : State) : s.preHit.locked = false := rfl
@[simp] theorem preHit_cnt (s : State) : s.preHit.cnt = 0 := rfl
@[simp] theorem preHit_delimStart (s : State) : s.preHit.delimStart = s.delimStart := rfl
@[simp] theorem preHit_bitIdx (s : State) : s.preHit.bitIdx = s.bitIdx := rfl
@[simp] theorem preHit_zeroRun (s : State) : s.preHit.zeroRun = s.zeroRun := rfl
@[simp] theorem preHit_manOver (s : State) : s.preHit.manOver = s.manOver := rfl
@[simp] theorem preHit_run (s : State) : s.preHit.run = s.run := rfl
@[simp] theorem preHit_result (s : State) : s.preHit.result = s.result := rfl
@[simp] theorem preHit_nbytes (s : State) : s.preHit.nbytes = s.nbytes := rfl
@[simp] theorem preHit_gateCnt (s : State) : s.preHit.gateCnt = s.gateCnt := rfl
@[simp] theorem preHit_rawLoaded (s : State) : s.preHit.rawLoaded = s.rawLoaded := rfl

@[simp] theorem preMiss_cfg (s : State) : s.preMiss.cfg = s.cfg := rfl
@[simp] theorem preMiss_inbox (s : State) : s.preMiss.inbox = s.inbox := rfl
@[simp] theorem preMiss_raw (s : State) : s.preMiss.raw = s.raw := rfl
@[simp] theorem preMiss_win (s : State) : s.preMiss.win = s.win := rfl
@[simp] theorem preMiss_acc (s : State) : s.preMiss.acc = s.acc := rfl
@[simp] theorem preMiss_frameOut (s : State) : s.preMiss.frameOut = s.frameOut := rfl
@[simp] theorem preMiss_rawIdx (s : State) : s.preMiss.rawIdx = s.rawIdx := rfl
@[simp] theorem preMiss_wr (s : State) : s.preMiss.wr = s.wr := rfl
@[simp] theorem preMiss_rd (s : State) : s.preMiss.rd = s.rd + BitVec.ofNat 5 s.bitLen := rfl
@[simp] theorem preMiss_len (s : State) : s.preMiss.len = s.len := rfl
@[simp] theorem preMiss_st (s : State) : s.preMiss.st = s.st := rfl
@[simp] theorem preMiss_pol (s : State) : s.preMiss.pol = s.pol := rfl
@[simp] theorem preMiss_locked (s : State) : s.preMiss.locked = s.locked := rfl
@[simp] theorem preMiss_cnt (s : State) : s.preMiss.cnt = s.cnt := rfl
@[simp] theorem preMiss_delimStart (s : State) : s.preMiss.delimStart = s.delimStart := rfl
@[simp] theorem preMiss_bitIdx (s : State) : s.preMiss.bitIdx = s.bitIdx := rfl
@[simp] theorem preMiss_zeroRun (s : State) : s.preMiss.zeroRun = s.zeroRun := rfl
@[simp] theorem preMiss_manOver (s : State) : s.preMiss.manOver = s.manOver := rfl
@[simp] theorem preMiss_run (s : State) : s.preMiss.run = s.run := rfl
@[simp] theorem preMiss_result (s : State) : s.preMiss.result = s.result := rfl
@[simp] theorem preMiss_nbytes (s : State) : s.preMiss.nbytes = s.nbytes := rfl
@[simp] theorem preMiss_gateCnt (s : State) : s.preMiss.gateCnt = s.gateCnt := rfl
@[simp] theorem preMiss_rawLoaded (s : State) : s.preMiss.rawLoaded = s.rawLoaded := rfl

@[simp] theorem takeEdge_cfg (s : State) (o : Int) : (s.takeEdge o).cfg = s.cfg := rfl
@[simp] theorem takeEdge_inbox (s : State) (o : Int) : (s.takeEdge o).inbox = s.inbox := rfl
@[simp] theorem takeEdge_raw (s : State) (o : Int) : (s.takeEdge o).raw = s.raw := rfl
@[simp] theorem takeEdge_win (s : State) (o : Int) : (s.takeEdge o).win = s.win := rfl
@[simp] theorem takeEdge_acc (s : State) (o : Int) : (s.takeEdge o).acc = s.acc := rfl
@[simp] theorem takeEdge_frameOut (s : State) (o : Int) : (s.takeEdge o).frameOut = s.frameOut := rfl
@[simp] theorem takeEdge_rawIdx (s : State) (o : Int) : (s.takeEdge o).rawIdx = s.rawIdx := rfl
@[simp] theorem takeEdge_wr (s : State) (o : Int) : (s.takeEdge o).wr = s.wr := rfl
@[simp] theorem takeEdge_rd (s : State) (o : Int) : (s.takeEdge o).rd = s.rd + BitVec.ofNat 5 s.bitLen + BitVec.ofInt 5 o := rfl
@[simp] theorem takeEdge_len (s : State) (o : Int) : (s.takeEdge o).len = s.len := rfl
@[simp] theorem takeEdge_st (s : State) (o : Int) : (s.takeEdge o).st = s.st := rfl
@[simp] theorem takeEdge_pol (s : State) (o : Int) : (s.takeEdge o).pol = !s.pol := rfl
@[simp] theorem takeEdge_locked (s : State) (o : Int) : (s.takeEdge o).locked = s.locked := rfl
@[simp] theorem takeEdge_cnt (s : State) (o : Int) : (s.takeEdge o).cnt = s.cnt := rfl
@[simp] theorem takeEdge_delimStart (s : State) (o : Int) : (s.takeEdge o).delimStart = s.delimStart := rfl
@[simp] theorem takeEdge_bitIdx (s : State) (o : Int) : (s.takeEdge o).bitIdx = s.bitIdx := rfl
@[simp] theorem takeEdge_zeroRun (s : State) (o : Int) : (s.takeEdge o).zeroRun = s.zeroRun := rfl
@[simp] theorem takeEdge_manOver (s : State) (o : Int) : (s.takeEdge o).manOver = s.manOver := rfl
@[simp] theorem takeEdge_run (s : State) (o : Int) : (s.takeEdge o).run = s.run := rfl
@[simp] theorem takeEdge_result (s : State) (o : Int) : (s.takeEdge o).result = s.result := rfl
@[simp] theorem takeEdge_nbytes (s : State) (o : Int) : (s.takeEdge o).nbytes = s.nbytes := rfl
@[simp] theorem takeEdge_gateCnt (s : State) (o : Int) : (s.takeEdge o).gateCnt = s.gateCnt := rfl
@[simp] theorem takeEdge_rawLoaded (s : State) (o : Int) : (s.takeEdge o).rawLoaded = s.rawLoaded := rfl

@[simp] theorem lockAt_cfg (s : State) : s.lockAt.cfg = s.cfg := rfl
@[simp] theorem lockAt_inbox (s : State) : s.lockAt.inbox = s.inbox := rfl
@[simp] theorem lockAt_raw (s : State) : s.lockAt.raw = s.raw := rfl
@[simp] theorem lockAt_win (s : State) : s.lockAt.win = s.win := rfl
@[simp] theorem lockAt_acc (s : State) : s.lockAt.acc = s.acc := rfl
@[simp] theorem lockAt_frameOut (s : State) : s.lockAt.frameOut = s.frameOut := rfl
@[simp] theorem lockAt_rawIdx (s : State) : s.lockAt.rawIdx = s.rawIdx := rfl
@[simp] theorem lockAt_wr (s : State) : s.lockAt.wr = s.wr := rfl
@[simp] theorem lockAt_rd (s : State) : s.lockAt.rd = s.rd := rfl
@[simp] theorem lockAt_len (s : State) : s.lockAt.len = s.len := rfl
@[simp] theorem lockAt_st (s : State) : s.lockAt.st = s.st := rfl
@[simp] theorem lockAt_pol (s : State) : s.lockAt.pol = s.pol := rfl
@[simp] theorem lockAt_locked (s : State) : s.lockAt.locked = true := rfl
@[simp] theorem lockAt_cnt (s : State) : s.lockAt.cnt = s.cnt := rfl
@[simp] theorem lockAt_delimStart (s : State) : s.lockAt.delimStart = s.rd := rfl
@[simp] theorem lockAt_bitIdx (s : State) : s.lockAt.bitIdx = s.bitIdx := rfl
@[simp] theorem lockAt_zeroRun (s : State) : s.lockAt.zeroRun = s.zeroRun := rfl
@[simp] theorem lockAt_manOver (s : State) : s.lockAt.manOver = s.manOver := rfl
@[simp] theorem lockAt_run (s : State) : s.lockAt.run = s.run := rfl
@[simp] theorem lockAt_result (s : State) : s.lockAt.result = s.result := rfl
@[simp] theorem lockAt_nbytes (s : State) : s.lockAt.nbytes = s.nbytes := rfl
@[simp] theorem lockAt_gateCnt (s : State) : s.lockAt.gateCnt = s.gateCnt := rfl
@[simp] theorem lockAt_rawLoaded (s : State) : s.lockAt.rawLoaded = s.rawLoaded := rfl

@[simp] theorem initDecode_cfg (s : State) : s.initDecode.cfg = s.cfg := rfl
@[simp] theorem initDecode_inbox (s : State) : s.initDecode.inbox = s.inbox := rfl
@[simp] theorem initDecode_raw (s : State) : s.initDecode.raw = s.raw := rfl
@[simp] theorem initDecode_win (s : State) : s.initDecode.win = 0 := rfl
@[simp] theorem initDecode_acc (s : State) : s.initDecode.acc = List.replicate s.cfg.maxBits false := rfl
@[simp] theorem initDecode_frameOut (s : State) : s.initDecode.frameOut = s.frameOut := rfl
@[simp] theorem initDecode_rawIdx (s : State) : s.initDecode.rawIdx = 0 := rfl
@[simp] theorem initDecode_wr (s : State) : s.initDecode.wr = 0 := rfl
@[simp] theorem initDecode_rd (s : State) : s.initDecode.rd = 0 := rfl
@[simp] theorem initDecode_len (s : State) : s.initDecode.len = BitVec.ofNat 4 s.cfg.nominalBitlen := rfl
@[simp] theorem initDecode_st (s : State) : s.initDecode.st = .preamble := rfl
@[simp] theorem initDecode_pol (s : State) : s.initDecode.pol = true := rfl
@[simp] theorem initDecode_locked (s : State) : s.initDecode.locked = false := rfl
@[simp] theorem initDecode_cnt (s : State) : s.initDecode.cnt = 0 := rfl
@[simp] theorem initDecode_delimStart (s : State) : s.initDecode.delimStart = 0 := rfl
@[simp] theorem initDecode_bitIdx (s : State) : s.initDecode.bitIdx = 0 := rfl
@[simp] theorem initDecode_zeroRun (s : State) : s.initDecode.zeroRun = 0 := rfl
@[simp] theorem initDecode_manOver (s : State) : s.initDecode.manOver = false := rfl
@[simp] theorem initDecode_run (s : State) : s.initDecode.run = s.run := rfl
@[simp] theorem initDecode_result (s : State) : s.initDecode.result = .none := rfl
@[simp] theorem initDecode_nbytes (s : State) : s.initDecode.nbytes = 0 := rfl
@[simp] theorem initDecode_gateCnt (s : State) : s.initDecode.gateCnt = s.gateCnt := rfl
@[simp] theorem initDecode_rawLoaded (s : State) : s.initDecode.rawLoaded = s.rawLoaded := rfl

@[simp] theorem placeHost_cfg (s : State) (w : HostWord) : (s.placeHost w).cfg = s.cfg := rfl
@[simp] theorem placeHost_inbox (s : State) (w : HostWord) : (s.placeHost w).inbox = some w :: s.inbox := rfl
@[simp] theorem placeHost_raw (s : State) (w : HostWord) : (s.placeHost w).raw = s.raw := rfl
@[simp] theorem placeHost_win (s : State) (w : HostWord) : (s.placeHost w).win = s.win := rfl
@[simp] theorem placeHost_acc (s : State) (w : HostWord) : (s.placeHost w).acc = s.acc := rfl
@[simp] theorem placeHost_frameOut (s : State) (w : HostWord) : (s.placeHost w).frameOut = s.frameOut := rfl
@[simp] theorem placeHost_rawIdx (s : State) (w : HostWord) : (s.placeHost w).rawIdx = s.rawIdx := rfl
@[simp] theorem placeHost_wr (s : State) (w : HostWord) : (s.placeHost w).wr = s.wr := rfl
@[simp] theorem placeHost_rd (s : State) (w : HostWord) : (s.placeHost w).rd = s.rd := rfl
@[simp] theorem placeHost_len (s : State) (w : HostWord) : (s.placeHost w).len = s.len := rfl
@[simp] theorem placeHost_st (s : State) (w : HostWord) : (s.placeHost w).st = s.st := rfl
@[simp] theorem placeHost_pol (s : State) (w : HostWord) : (s.placeHost w).pol = s.pol := rfl
@[simp] theorem placeHost_locked (s : State) (w : HostWord) : (s.placeHost w).locked = s.locked := rfl
@[simp] theorem placeHost_cnt (s : State) (w : HostWord) : (s.placeHost w).cnt = s.cnt := rfl
@[simp] theorem placeHost_delimStart (s : State) (w : HostWord) : (s.placeHost w).delimStart = s.delimStart := rfl
@[simp] theorem placeHost_bitIdx (s : State) (w : HostWord) : (s.placeHost w).bitIdx = s.bitIdx := rfl
@[simp] theorem placeHost_zeroRun (s : State) (w : HostWord) : (s.placeHost w).zeroRun = s.zeroRun := rfl
@[simp] theorem placeHost_manOver (s : State) (w : HostWord) : (s.placeHost w).manOver = s.manOver := rfl
@[simp] theorem placeHost_run (s : State) (w : HostWord) : (s.placeHost w).run = s.run := rfl
@[simp] theorem placeHost_result (s : State) (w : HostWord) : (s.placeHost w).result = s.result := rfl
@[simp] theorem placeHost_nbytes (s : State) (w : HostWord) : (s.placeHost w).nbytes = s.nbytes := rfl
@[simp] theorem placeHost_gateCnt (s : State) (w : HostWord) : (s.placeHost w).gateCnt = s.gateCnt := rfl
@[simp] theorem placeHost_rawLoaded (s : State) (w : HostWord) : (s.placeHost w).rawLoaded = s.rawLoaded := rfl

end Sys2Proof.Machine
end

