-- ==== Sys2Proof/Laws/Ops.lean ====
section
/-! SUPPORT. What each shared operation and each meaning can do, said once: if it answers a next state, then one
of these cases holds. -/

namespace Sys2Proof.Machine

/-! ## The conditions of a consumer step -/

theorem next_inj {a b : State} : (Host.Outcome.next a : Out) = .next b ↔ b = a :=
  ⟨fun h => by injection h with h; exact h.symm, fun h => by rw [h]⟩

theorem fault_not_next {r : Fault} {b : State} : (Host.Outcome.fault r : Out) = .next b ↔ False :=
  ⟨fun h => by injection h, False.elim⟩

theorem refused_not_next {r : Refusal} {b : State} : (Host.Outcome.refused r : Out) = .next b ↔ False :=
  ⟨fun h => by injection h, False.elim⟩

theorem lengthLegal_iff (s : State) : s.lengthLegal = true ↔ 1 ≤ s.bitLen ∧ s.bitLen ≤ 10 := by
  simp [State.lengthLegal]

/-- The conditions of a consumer step are the model's `needFor` and length check. -/
theorem mayConsume_iff (s : State) (strategy : Strategy) (st : SyncState) :
    s.mayConsume strategy st ↔ 1 ≤ s.bitLen ∧ s.bitLen ≤ 10 ∧ needFor s.cfg strategy st s.bitLen ≤ s.avail := by
  cases st <;> cases strategy <;> simp [State.mayConsume, needFor]

/-- Where its conditions hold, a consumer step is its body. -/
theorem withLookahead_of_mayConsume {strategy : Strategy} {st : SyncState} {s : State} (body : Out)
    (h : s.mayConsume strategy st) : withLookahead strategy st s body = body := by
  obtain ⟨h1, h2, h3⟩ := (mayConsume_iff s strategy st).1 h
  rw [withLookahead, if_pos ((lengthLegal_iff s).2 ⟨h1, h2⟩), if_pos h3]

theorem withLookahead_next {strategy : Strategy} {st : SyncState} {s t : State} {body : Out} :
    withLookahead strategy st s body = .next t ↔ s.mayConsume strategy st ∧ body = .next t := by
  rw [mayConsume_iff]
  unfold withLookahead
  have := lengthLegal_iff s
  split
  · split <;> simp_all
  · simp_all

theorem withScorer_next {s t : State} {body : Out} :
    withScorer s body = .next t ↔ s.cfg.edgeHalf + 2 ≤ s.bitLen ∧ body = .next t := by
  unfold withScorer State.scorerAhead
  split <;> simp_all

theorem withRoom_next {s t : State} {a : Assembled} {body : Out} :
    withRoom s a body = .next t ↔
      (s.bitIdx < s.cfg.maxBits ∨ s.bitIdx = s.cfg.maxBits ∧ a.stored = none) ∧ body = .next t := by
  unfold withRoom
  split <;> simp_all

/-! ## The assembler and the validator -/

/-- The four answers of the NRZ assembler: a stuffed 1, a 1, the 0 that ends the frame, a 0. -/
theorem asmNrz_cases (c : Config) (zeroRun : BitVec 3) (v : Bool) :
    (v = true ∧ c.stuffThresh ≤ zeroRun.toNat ∧ asmNrz c zeroRun v = ⟨none, 0, false⟩) ∨
    (v = true ∧ zeroRun.toNat < c.stuffThresh ∧ asmNrz c zeroRun v = ⟨some true, 0, false⟩) ∨
    (v = false ∧ 5 ≤ (zeroRun + 1).toNat ∧ asmNrz c zeroRun v = ⟨none, zeroRun + 1, true⟩) ∨
    (v = false ∧ (zeroRun + 1).toNat < 5 ∧ asmNrz c zeroRun v = ⟨some false, zeroRun + 1, false⟩) := by
  cases v
  · by_cases h : 5 ≤ (zeroRun + 1).toNat
    · exact .inr (.inr (.inl ⟨rfl, h, if_pos h⟩))
    · exact .inr (.inr (.inr ⟨rfl, not_le.1 h, if_neg h⟩))
  · by_cases h : c.stuffThresh ≤ zeroRun.toNat
    · exact .inl ⟨rfl, h, if_pos h⟩
    · exact .inr (.inl ⟨rfl, not_le.1 h, if_neg h⟩)

/-- The Manchester assembler stores every bit but the end marker's. -/
@[simp] theorem asmMan_over (zeroRun : BitVec 3) (v : Bool) : asmMan zeroRun true v = ⟨none, zeroRun, true⟩ := rfl
@[simp] theorem asmMan_bit (zeroRun : BitVec 3) (v : Bool) : asmMan zeroRun false v = ⟨some v, zeroRun, false⟩ := rfl

/-- The assembler writes `zero_run`, and a cell with `bit_idx` when it stores. -/
theorem assemble_cases (s : State) (a : Assembled) :
    (a.stored = none ∧ s.assemble a = { s with zeroRun := a.zeroRun }) ∨
      ∃ b, a.stored = some b ∧
        s.assemble a = { s with zeroRun := a.zeroRun, acc := s.acc.set s.bitIdx b, bitIdx := s.bitIdx + 1 } := by
  unfold State.assemble
  split
  · exact .inr ⟨_, by assumption, rfl⟩
  · exact .inl ⟨by assumption, rfl⟩

/-- What steps 3 and 4 of the validator answer for a byte list. -/
theorem checkFrame_cases (s : State) (frame : List Byte) :
    (frame.length ≠ s.cfg.frameSize ∧
      s.checkFrame frame = { s with nbytes := frame.length, result := .rejectLength, run := false }) ∨
    (frame.length = s.cfg.frameSize ∧ frameChecksum s.cfg frame ≠ frameField s.cfg frame ∧
      s.checkFrame frame = { s with nbytes := frame.length, result := .rejectChecksum, run := false }) ∨
    (frame.length = s.cfg.frameSize ∧ frameChecksum s.cfg frame = frameField s.cfg frame ∧
      s.checkFrame frame =
        { s with
          nbytes := frame.length, frameOut := s.frameOut.writeBytes 0 frame
          result := .frameValid, run := false }) := by
  unfold State.checkFrame
  split
  · exact .inl ⟨by assumption, rfl⟩
  · split
    · exact .inr (.inl ⟨not_not.1 (by assumption), by assumption, rfl⟩)
    · exact .inr (.inr ⟨not_not.1 (by assumption), not_not.1 (by assumption), rfl⟩)

/-- The validator ends the decode with a reject, writing `nbytes`, or with a checked frame in `FRAME_OUT`. -/
theorem validate_cases (s : State) :
    (∃ n r, (r = .rejectEcc ∨ r = .rejectLength ∨ r = .rejectChecksum) ∧
      s.validate = { s with nbytes := n, result := r, run := false }) ∨
    (∃ frame : List Byte, frame.length = s.cfg.frameSize ∧ frameChecksum s.cfg frame = frameField s.cfg frame ∧
      s.validate =
        { s with
          nbytes := frame.length, frameOut := s.frameOut.writeBytes 0 frame
          result := .frameValid, run := false }) := by
  have check : ∀ frame : List Byte,
      (∃ n r, (r = Result.rejectEcc ∨ r = .rejectLength ∨ r = .rejectChecksum) ∧
        s.checkFrame frame = { s with nbytes := n, result := r, run := false }) ∨
      (∃ f : List Byte, f.length = s.cfg.frameSize ∧ frameChecksum s.cfg f = frameField s.cfg f ∧
        s.checkFrame frame =
          { s with
            nbytes := f.length, frameOut := s.frameOut.writeBytes 0 f
            result := .frameValid, run := false }) := fun frame => by
    rcases checkFrame_cases s frame with ⟨-, h⟩ | ⟨-, -, h⟩ | ⟨h1, h2, h⟩
    · exact .inl ⟨_, _, by simp, h⟩
    · exact .inl ⟨_, _, by simp, h⟩
    · exact .inr ⟨frame, h1, h2, h⟩
  unfold State.validate
  split
  · split
    · exact .inl ⟨_, _, by simp, rfl⟩
    · exact check _
  · exact check _

/-- The hand-off leaves the state or validates it. -/
theorem handOff_cases (s : State) (eof : Bool) :
    ((eof = true ∨ s.cfg.maxBits ≤ s.bitIdx) ∧ s.handOff eof = s.validate) ∨
      (eof = false ∧ s.bitIdx < s.cfg.maxBits ∧ s.handOff eof = s) := by
  unfold State.handOff State.full
  by_cases h : s.cfg.maxBits ≤ s.bitIdx
  · simp [h]
  · cases eof <;> simp [h]; omega

/-! ## DELIM -/

/-- The finalize halts on a length out of range, else enters DATA with the length measured. -/
theorem delimFinalize_cases (s : State) :
    let newL := measuredLength s.cfg s.rd s.delimStart
    ((newL < 1 ∨ 10 < newL) ∧ s.delimFinalize = s.halt .abortBadDelimiter) ∨
    ((1 ≤ newL ∧ newL ≤ 10) ∧
      s.delimFinalize =
        { s with
          len := BitVec.ofNat 4 newL, rd := s.rd + BitVec.ofNat 5 newL
          st := .data, bitIdx := 0, zeroRun := 0 }) := by
  intro newL
  unfold State.delimFinalize
  by_cases h : newL < 1 ∨ 10 < newL
  · exact .inl ⟨h, if_pos h⟩
  · exact .inr ⟨by omega, if_neg h⟩

/-- The four outcomes of DELIM before the finalize: hunt, abort, lock, counted edge. -/
theorem delimStep_cases (s : State) (edge : Int × Nat) :
    (edge.2 < s.cfg.edgeMin ∧ s.locked = false ∧ s.delimStep edge = { s with rd := s.rd + 1 }) ∨
    (edge.2 < s.cfg.edgeMin ∧ s.locked = true ∧ s.delimStep edge = s.halt .abortBadDelimiter) ∨
    (s.cfg.edgeMin ≤ edge.2 ∧ s.locked = false ∧ s.delimStep edge = (s.takeEdge edge.1).lockAt) ∨
    (s.cfg.edgeMin ≤ edge.2 ∧ s.locked = true ∧ s.delimStep edge = (s.takeEdge edge.1).countEdge) := by
  unfold State.delimStep
  by_cases h : s.cfg.edgeMin ≤ edge.2 <;> cases hl : s.locked <;> simp [h] <;> omega

/-- A counted edge below the delimiter length adds one; the last one finalizes. -/
theorem countEdge_cases (s : State) :
    ((s.cnt + 1).toNat ≠ s.cfg.delimLen ∧ s.countEdge = { s with cnt := s.cnt + 1 }) ∨
    ((s.cnt + 1).toNat = s.cfg.delimLen ∧
      s.countEdge = ({ s with cnt := s.cnt + 1 } : State).delimFinalize) := by
  by_cases h : (s.cnt + 1).toNat = s.cfg.delimLen
  · exact .inr ⟨h, if_pos h⟩
  · exact .inl ⟨h, if_neg h⟩

/-! ## The meanings -/

theorem execUnpack_next {s t : State} :
    execUnpack s = .next t ↔ s.rawIdx < s.cfg.rawCap ∧
      t = { s with
        win := winWriteBits s.win s.wr (s.raw.read s.rawIdx) unpackN
        wr := s.wr + 8, rawIdx := s.rawIdx + 1 } := by
  unfold execUnpack
  by_cases h : s.rawIdx < s.cfg.rawCap
  · rw [if_pos h, next_inj]; exact ⟨fun e => ⟨h, e⟩, And.right⟩
  · rw [if_neg h, fault_not_next]; exact ⟨False.elim, fun e => h e.1⟩

theorem execPre_next {s t : State} :
    execPre s = .next t ↔ s.mayConsume s.cfg.strategy .preamble ∧
      t = if vote s.win s.rd s.bitLen then s.preHit else s.preMiss := by
  unfold execPre
  rw [withLookahead_next, next_inj]

theorem execDelim_next {s t : State} :
    execDelim s = .next t ↔ s.mayConsume s.cfg.strategy .delimiter ∧ s.cfg.edgeHalf + 2 ≤ s.bitLen ∧
      t = s.delimStep (s.edgeAhead s.pol) := by
  unfold execDelim
  rw [withLookahead_next, withScorer_next, next_inj]

theorem execDataNrz_next {s t : State} :
    execDataNrz s = .next t ↔ s.mayConsume .nrz .data ∧
      let v := vote s.win s.rd s.bitLen
      let a := asmNrz s.cfg s.zeroRun v
      (s.bitIdx < s.cfg.maxBits ∨ s.bitIdx = s.cfg.maxBits ∧ a.stored = none) ∧
      t = (({ s with rd := s.nrzCursor v } : State).assemble a).handOff a.eof := by
  unfold execDataNrz
  rw [withLookahead_next, withRoom_next, next_inj]

theorem execDataMan_next {s t : State} :
    execDataMan s = .next t ↔ s.mayConsume .man .data ∧
      let v := decide (s.groupB < s.groupA)
      let ov := overFlag s.groupA s.groupB
      let a := asmMan s.zeroRun ov v
      (s.bitIdx < s.cfg.maxBits ∨ s.bitIdx = s.cfg.maxBits ∧ a.stored = none) ∧
      ((a.eof = true ∧ t = (({ s with manOver := ov } : State).assemble a).validate) ∨
        (a.eof = false ∧ s.cfg.edgeHalf + 2 ≤ s.bitLen ∧
          t = (({ s with manOver := ov, rd := s.manCursor v } : State).assemble a).handOff false)) := by
  unfold execDataMan
  rw [withLookahead_next, withRoom_next]
  refine and_congr_right fun _ => and_congr_right fun _ => ?_
  cases (asmMan s.zeroRun (overFlag s.groupA s.groupB) (decide (s.groupB < s.groupA))).eof
  · rw [if_neg (by simp), withScorer_next, next_inj]; simp only [Bool.false_eq_true, false_and, false_or, true_and]
  · rw [if_pos rfl, next_inj]; simp only [true_and, Bool.true_eq_false, false_and, or_false]

theorem execCapture_next {samples : List Bool} {s t : State} :
    execCapture samples s = .next t ↔ samples.length = 8 * s.cfg.rawCap ∧
      t = if s.captureLegal then
          { s with raw := s.raw.writeBytes 0 (packSamples s.cfg.rawCap samples), rawLoaded := true, gateCnt := 0 }
        else s := by
  unfold execCapture
  by_cases h : samples.length = 8 * s.cfg.rawCap
  · rw [if_pos h]
    split <;> rw [next_inj] <;> exact ⟨fun e => ⟨h, e⟩, And.right⟩
  · rw [if_neg h, refused_not_next]; exact ⟨False.elim, fun e => h e.1⟩

theorem execGate_next {rssi : Nat} {s t : State} :
    execGate rssi s = .next t ↔
      t = if s.gateLegal then { s with gateCnt := gateCount s.cfg s.gateCnt rssi } else s := by
  unfold execGate
  split <;> rw [next_inj]

theorem execStart_next {s t : State} :
    execStart s = .next t ↔ t = if s.startLegal then { s.initDecode with run := true } else s := by
  unfold execStart
  split <;> rw [next_inj]

/-! ## The step -/

@[simp] theorem nextSlot_bitLen (s : State) : s.nextSlot.bitLen = s.bitLen := rfl
@[simp] theorem nextSlot_avail (s : State) : s.nextSlot.avail = s.avail := rfl
@[simp] theorem nextSlot_need (s : State) : s.nextSlot.need = s.need := rfl

/-- A next state comes from a legal block, a decoded well-formed operation and its meaning. -/
theorem step_next {s t : State} :
    step s = .next t ↔ legal s.cfg ∧ ∃ i, s.runs i ∧ exec i s.nextSlot = .next t := by
  unfold step State.runs
  by_cases h : legal s.cfg
  · rw [if_pos h]
    refine Iff.trans ?_ (and_iff_right h).symm
    cases decode (fetch s) with
    | error e =>
      exact ⟨fun ht => absurd ht (refused_not_next.1 ·), fun ⟨_, ⟨hj, _⟩, _⟩ => by injection hj⟩
    | ok i =>
      by_cases hw : i.wellFormed s.cfg = true
      · simp only [hw, if_true]
        refine ⟨fun ht => ⟨i, ⟨rfl, hw⟩, ht⟩, fun ⟨j, ⟨hj, _⟩, ht⟩ => ?_⟩
        injection hj with hj
        exact hj ▸ ht
      · simp only [hw, Bool.false_eq_true, if_false]
        refine ⟨fun ht => absurd ht (refused_not_next.1 ·), fun ⟨j, ⟨hj, hwj⟩, _⟩ => ?_⟩
        injection hj with hj
        exact absurd (hj ▸ hwj) hw
  · rw [if_neg h, refused_not_next]
    exact ⟨False.elim, fun e => h e.1⟩

/-- The host's command is fetched where there is one. -/
theorem fetch_of_command {s : State} {w : HostWord} (h : s.inbox.head?.join = some w) :
    fetch s = .host w := by
  unfold fetch
  split
  · simp_all
  · rename_i hn
    cases hb : s.inbox with
    | nil => simp [hb] at h
    | cons x l => cases x with
      | none => simp [hb] at h
      | some v => exact absurd hb (hn v l)

/-- Else the dispatch word is. -/
theorem fetch_of_silent {s : State} (h : s.hostSilent) : fetch s = .block (dispatchWord s) := by
  unfold fetch
  split
  · simp_all [State.hostSilent]
  · rfl

end Sys2Proof.Machine
end

