-- ==== Sys2Proof/Laws/PerInstr.lean ====
section
/-! SUPPORT. Statements made per instruction: each instruction's encoding carries the bits that its own row of
spec/opcode_table.json fixes. -/

namespace Sys2Proof.Laws

/-- The mask and match of the instruction's row, read as one number (30_encoding.md R63, R66, R67). -/
def rowOf : Instr → Nat × Nat
  | .idle => (0x20, 0x00)
  | .exhaust => (0x38, 0x20)
  | .unpack => (0x38, 0x28)
  | .pre => (0x33, 0x30)
  | .delim => (0x33, 0x31)
  | .dataNrz => (0x37, 0x32)
  | .dataMan => (0x37, 0x36)
  | .illegal => (0x33, 0x33)
  | .nop => (0x7, 0x0)
  | .reset => (0x7, 0x1)
  | .gate _ => (0x7, 0x2)
  | .capture _ => (0x7, 0x3)
  | .start => (0x7, 0x4)
  | .reserved5 => (0x7, 0x5)
  | .reserved6 => (0x7, 0x6)
  | .reserved7 => (0x7, 0x7)

/-- The bits of a word that the opcode table numbers. -/
def tableBits : FetchWord → Nat
  | .block d => d.toNat
  | .host w => w.code.toNat

/-- The encoding of `i` matches its own row. -/
def RowEncoding.Statement (i : Instr) : Prop :=
  tableBits (encode i) &&& (rowOf i).1 = (rowOf i).2

theorem RowEncoding.idle : RowEncoding.Statement .idle := rfl
theorem RowEncoding.exhaust : RowEncoding.Statement .exhaust := rfl
theorem RowEncoding.unpack : RowEncoding.Statement .unpack := rfl
theorem RowEncoding.pre : RowEncoding.Statement .pre := rfl
theorem RowEncoding.delim : RowEncoding.Statement .delim := rfl
theorem RowEncoding.dataNrz : RowEncoding.Statement .dataNrz := rfl
theorem RowEncoding.dataMan : RowEncoding.Statement .dataMan := rfl
theorem RowEncoding.illegal : RowEncoding.Statement .illegal := rfl
theorem RowEncoding.nop : RowEncoding.Statement .nop := rfl
theorem RowEncoding.reset : RowEncoding.Statement .reset := rfl
theorem RowEncoding.gate (rssi : Nat) : RowEncoding.Statement (.gate rssi) := by
  simp [RowEncoding.Statement, tableBits, encode, rowOf]
theorem RowEncoding.capture (samples : List Bool) : RowEncoding.Statement (.capture samples) := by
  simp [RowEncoding.Statement, tableBits, encode, rowOf]
theorem RowEncoding.start : RowEncoding.Statement .start := rfl
theorem RowEncoding.reserved5 : RowEncoding.Statement .reserved5 := rfl
theorem RowEncoding.reserved6 : RowEncoding.Statement .reserved6 := rfl
theorem RowEncoding.reserved7 : RowEncoding.Statement .reserved7 := rfl

end Sys2Proof.Laws
end

