-- ==== Sys2Proof/Laws/Window.lean ====
section
/-! SUPPORT. The laws of the decode window: read after write, and which samples a function reads. -/

namespace Sys2Proof.Machine

/-- A read after a write of one sample. -/
theorem winRead_winWrite (w : Window) (i j : Cursor) (b : Bool) :
    winRead (winWrite w i b) j = if j = i then b else winRead w j := by
  have hj : j.toNat < 32 := j.isLt
  have hi : i.toNat < 32 := i.isLt
  have he : j = i ↔ j.toNat = i.toNat := BitVec.toNat_eq
  have hbit : (1#32 <<< i.toNat).getLsbD j.toNat = decide (j.toNat = i.toNat) := by
    rw [BitVec.getLsbD_shiftLeft]
    by_cases h : j.toNat = i.toNat
    · simp [h, hi]
    · by_cases h2 : j.toNat < i.toNat
      · simp [h2, h]
      · have : j.toNat - i.toNat ≠ 0 := by omega
        simp [h, h2, this, hj]
  unfold winRead winWrite
  by_cases h : j = i
  · cases b
    · simp only [Bool.false_eq_true, if_false, BitVec.getLsbD_and, BitVec.getLsbD_not, hbit, if_pos h]
      simp [he.1 h]
    · simp only [if_true, BitVec.getLsbD_or, hbit, if_pos h]
      simp [he.1 h]
  · have hn : ¬ j.toNat = i.toNat := fun e => h (he.2 e)
    cases b
    · simp only [Bool.false_eq_true, if_false, BitVec.getLsbD_and, BitVec.getLsbD_not, hbit, if_neg h]
      simp [hn, hj]
    · simp only [if_true, BitVec.getLsbD_or, hbit, if_neg h]
      simp [hn]

/-- The samples that writing `n` bits changes. -/
theorem winRead_winWriteBits_other (w : Window) (i j : Cursor) (b : Byte) {n : Nat}
    (h : ∀ k, k < n → j ≠ i + BitVec.ofNat 5 k) : winRead (winWriteBits w i b n) j = winRead w j := by
  induction n with
  | zero => rfl
  | succ n ih =>
    rw [winWriteBits, winRead_winWrite, if_neg (h n (by omega)), ih fun k hk => h k (by omega)]

/-- The samples written: bit `k` of the byte at `i + k`. -/
theorem winRead_winWriteBits (w : Window) (i : Cursor) (b : Byte) {n k : Nat} (hn : n ≤ 8) (hk : k < n) :
    winRead (winWriteBits w i b n) (i + BitVec.ofNat 5 k) = b.getLsbD k := by
  induction n with
  | zero => omega
  | succ n ih =>
    rw [winWriteBits, winRead_winWrite]
    by_cases h : k = n
    · subst h; simp
    · have : i + BitVec.ofNat 5 k ≠ i + BitVec.ofNat 5 n := by
        intro e
        have := congrArg BitVec.toNat e
        simp only [BitVec.toNat_add, BitVec.toNat_ofNat] at this
        omega
      rw [if_neg this, ih (by omega) (by omega)]

/-- `Ones` depends on the `n` samples it counts alone. -/
theorem ones_congr {w w' : Window} {i : Cursor} {n : Nat}
    (h : ∀ k, k < n → winRead w' (i + BitVec.ofNat 5 k) = winRead w (i + BitVec.ofNat 5 k)) :
    ones w' i n = ones w i n :=
  countBelow_congr h

/-- `EdgeScore` depends on the samples within `h` of the edge alone. -/
theorem edgeScore_congr {w w' : Window} {p : Cursor} {q : Bool} {h : Nat}
    (hb : ∀ k, k < h → winRead w' (p - BitVec.ofNat 5 (k + 1)) = winRead w (p - BitVec.ofNat 5 (k + 1)))
    (ha : ∀ k, k < h → winRead w' (p + BitVec.ofNat 5 k) = winRead w (p + BitVec.ofNat 5 k)) :
    edgeScore h w' p q = edgeScore h w p q := by
  unfold edgeScore
  congr 1
  · exact countBelow_congr fun k hk => by rw [hb k hk]
  · exact countBelow_congr fun k hk => by rw [ha k hk]

/-- The search keeps its best so far or takes the candidate. -/
theorem betterEdge_cases (h : Nat) (w : Window) (base : Cursor) (q : Bool) (best : Int × Nat) (o : Int) :
    (best.2 < scoreAt h w base q o ∧ betterEdge h w base q best o = (o, scoreAt h w base q o)) ∨
      (scoreAt h w base q o ≤ best.2 ∧ betterEdge h w base q best o = best) := by
  unfold betterEdge
  split
  · exact .inl ⟨‹_›, rfl⟩
  · exact .inr ⟨by omega, rfl⟩

end Sys2Proof.Machine
end

