-- ==== Sys2Proof/Tests/Slice0.lean ====
section
/-! SUPPORT. Tests. Expected values are those of spec/95_test_vectors.md (the section is named at each group) and
of the examples in the rules; the witnesses at the end show that the hypotheses of the statements can be met. -/

namespace Sys2Proof.Tests

open Sys2Proof.Machine

/-- The next state of an outcome, seen through `f`. -/
def seen {α : Type} (o : Out) (f : State → α) : Option α :=
  match o with
  | .next t => some (f t)
  | _ => none

/-- A decode in flight in the state `st`, with the given window and cursors. -/
def flying (st : SyncState) (win : Window) (rd wr : Cursor) : State :=
  { State.reset with run := true, rawLoaded := true, st := st, win := win, rd := rd, wr := wr }

/-- The same with the Manchester decoder built in. -/
def flyingMan (win : Window) (rd wr : Cursor) : State :=
  { flying .data win rd wr with cfg := { Config.default with strategy := .man } }

/-- The bits of frame F1 as program P1 leaves them in `ACC`. -/
def accP1 : List Bool :=
  frameBits Config.default [0xA5, 0x3C, 0xA8, 0x2A] ++ List.replicate 32 false

/-! ## Well-formedness -/

theorem test_wellformed_refuses_short_capture :
    (Instr.capture [true]).wellFormed Config.default = false := by decide
theorem test_wellformed_takes_whole_burst :
    (Instr.capture (List.replicate 384 true)).wellFormed Config.default = true := by decide +kernel

/-! ## Decoding: words written out from the tables of 30_encoding.md R63, R66, R67 and 95 section 2.2 -/

theorem test_decode_idle : decode (.block 0b001000) = .ok .idle := by rfl
theorem test_decode_exhaust : decode (.block 0b100010) = .ok .exhaust := by rfl
theorem test_decode_unpack : decode (.block 0b101001) = .ok .unpack := by rfl
theorem test_decode_pre : decode (.block 0b111000) = .ok .pre := by rfl
theorem test_decode_delim : decode (.block 0b111001) = .ok .delim := by rfl
theorem test_decode_dataNrz : decode (.block 0b111010) = .ok .dataNrz := by rfl
theorem test_decode_dataMan : decode (.block 0b111110) = .ok .dataMan := by rfl
theorem test_decode_illegal : decode (.block 0b111011) = .ok .illegal := by rfl
theorem test_decode_nop : decode (.host (.plain 0b000)) = .ok .nop := by rfl
theorem test_decode_reset : decode (.host (.plain 0b001)) = .ok .reset := by rfl
theorem test_decode_gate : decode (.host ⟨0b010, 150, []⟩) = .ok (.gate 150) := by rfl
theorem test_decode_capture : decode (.host ⟨0b011, 0, [0x1F]⟩) =
    .ok (.capture [true, true, true, true, true, false, false, false]) := by rfl
theorem test_decode_start : decode (.host (.plain 0b100)) = .ok .start := by rfl
theorem test_decode_reserved5 : decode (.host (.plain 0b101)) = .ok .reserved5 := by rfl
theorem test_decode_reserved6 : decode (.host (.plain 0b110)) = .ok .reserved6 := by rfl
theorem test_decode_reserved7 : decode (.host (.plain 0b111)) = .ok .reserved7 := by rfl

/-- The mnemonic's own table word for each row, as the host numbers it. -/
theorem test_table_words :
    ([0x20, 0x28, 0x30, 0x31, 0x32, 0x36, 0x33, 0x08].map (decodeTableWord 8)) =
      [some .exhaust, some .unpack, some .pre, some .delim, some .dataNrz, some .dataMan, some .illegal, some .idle] ∧
    ([0, 1, 2, 4, 5, 6, 7].map (decodeTableWord 8)) =
      [some .nop, some .reset, some (.gate 0), some .start, some .reserved5, some .reserved6, some .reserved7] ∧
    decodeTableWord 8 3 = some (.capture (List.replicate 384 false)) ∧ decodeTableWord 8 64 = none := by decide +kernel

/-- Whatever dispatch word is placed after reset, the next step fetches the instruction it decodes to. -/
theorem test_placed_words_are_fetched :
    ∀ w ∈ List.range 64, decode (fetch (State.reset.withFetchWord 6 w)) = decode (.block (BitVec.ofNat 6 w)) := by
  decide
theorem test_placed_commands_are_fetched :
    ∀ w ∈ List.range 8, fetch (State.reset.withFetchWord 3 w) = .host (bareHostWord 48 w) := by decide

/-! ## Codes and memory -/

theorem test_result_codes :
    [Result.none, .frameValid, .abortExhausted, .abortBadDelimiter, .rejectEcc, .rejectLength, .rejectChecksum,
      .faultIllegal].map (fun r => (resultCode r).toNat) = [0, 1, 2, 3, 4, 5, 6, 7] := by decide
theorem test_memory_stays_canonical :
    Memory.writeBytes [] 0 [0x1F, 0x00, 0xE0] = [(0, 0x1F), (2, 0xE0)] ∧
      Memory.write [(0, 0x1F), (2, 0xE0)] 0 0 = [(2, 0xE0)] := by decide

/-! ## Scorer and checksums: 95 sections 2.4 and 2.9 -/

theorem test_best_edge :
    [bestEdge 2 0x00FF00FF 8 true, bestEdge 2 0x00FF00FF 7 true, bestEdge 2 0x00FF00FF 10 true,
      bestEdge 2 0x00FF00FF 11 true, bestEdge 2 0x00FF00FF 16 false, bestEdge 2 0x00FF00FF 16 true] =
      [(0, 4), (1, 4), (-2, 4), (-2, 3), (0, 4), (-2, 2)] := by decide
theorem test_best_edge_ties_and_wrap :
    [bestEdge 2 0x000000BF 7 true, bestEdge 2 0x000000BF 6 true, bestEdge 2 0x000000BF 8 true,
      bestEdge 2 0xF000000F 3 true] = [(-2, 3), (-1, 3), (-2, 3), (1, 4)] := by decide
theorem test_crc :
    crc16 [0x31, 0x32, 0x33, 0x34, 0x35, 0x36, 0x37, 0x38, 0x39] 0xFFFF = 0x6F91 ∧
      crc16 [0xA5, 0x3C] 0 = 0x2AA8 ∧ crc16 [0x5A] 0 = 0xFDDF ∧ crc16Add 0 0xFF = 0x0F78 := by decide
theorem test_crc8 :
    [0x31, 0x32, 0x33, 0x34, 0x35, 0x36, 0x37, 0x38, 0x39].foldl crc8Add 0 = 0xA1 ∧ crc8Add 0 0xFF = 0x35 := by
  decide +kernel
theorem test_frames :
    frameOf Config.default [0xA5, 0x3C] = [0xA5, 0x3C, 0xA8, 0x2A] ∧
      frameOf { Config.default with crcLittleEndian := false } [0x5A] = [0x5A, 0xFD, 0xDF] := by decide
/-- 43_assembler.md R121 and 30_encoding.md R55 examples. -/
theorem test_stuffing :
    stuffFrom 4 0 [true, false, false, false, false, false, true] =
        [true, false, false, false, false, true, false, true] ∧
      asmNrzAll Config.default 0 [true, false, false, false, false, true, false, true] =
        ([true, false, false, false, false, false, true], 0, false) := by decide

/-! ## The block's operations -/

theorem test_idle : seen (step State.reset) id = some State.reset := by decide
/-- 95 section 2.1 -/
theorem test_exhaust : seen (step { flying .preamble 0 0 0 with rawIdx := 48 })
    (fun t => (t.result, t.run, t.rawIdx)) = some (.abortExhausted, false, 48) := by decide
theorem test_unpack : seen (exec .unpack { flying .preamble 0 0 24 with rawIdx := 3, raw := [(3, 0xA5)] })
    (fun t => (t.win, t.wr, t.rawIdx)) = some (0xA5000000, 0, 4) := by decide
theorem test_unpack_first : seen (step { flying .preamble 0 0 0 with raw := [(0, 0xFF)] })
    (fun t => (t.win, t.wr, t.rawIdx)) = some (0xFF, 8, 1) := by decide
/-- 95 section 2.3 -/
theorem test_pre_hit : seen (step (flying .preamble 0x0F 0 8))
    (fun t => (t.st, t.pol, t.locked, t.cnt, t.rd)) = some (.delimiter, true, false, 0, 0) := by decide
theorem test_pre_miss : seen (step (flying .preamble 0x38000000 24 0)) (fun t => (t.st, t.rd)) =
    some (.preamble, 0) := by decide
/-- 95 section 2.5 -/
theorem test_delim_lock : seen (step (flying .delimiter 0xFF00FFFF 5 0))
    (fun t => (t.rd, t.pol, t.locked, t.delimStart, t.cnt)) = some (15, false, true, 15, 0) := by decide
theorem test_delim_final : seen (step
      { flying .delimiter 0x0000FF00 8 0 with locked := true, cnt := 3, delimStart := 15, len := 8 })
    (fun t => (t.rd, t.st, t.len, t.cnt, t.bitIdx, t.pol)) = some (24, .data, 8, 4, 0, false) := by decide
/-- 95 section 2.6 -/
theorem test_nrz_back : seen (step (flying .data 0x0FE 0 16)) (fun t => (t.rd, t.acc.getD 0 false, t.bitIdx)) =
    some (7, true, 1) := by decide
/-- 95 program P1, the last step: end of frame, the validator accepts. -/
theorem test_nrz_frame_valid : seen (step { flying .data 0 24 8 with acc := accP1, bitIdx := 35, zeroRun := 4 })
    (fun t => (t.frameRead, t.nbytes, t.zeroRun, t.rd, t.run)) =
    some (some [0xA5, 0x3C, 0xA8, 0x2A], 4, 5, 0, false) := by decide
/-- 95 section 2.7 -/
theorem test_man_forward : seen (step (flyingMan 0x01FE 0 24))
    (fun t => (t.rd, t.acc.getD 0 false, t.manOver)) = some (17, true, false) := by decide
theorem test_man_over : seen (step (flyingMan 0xFFFF 0 24))
    (fun t => (t.rd, t.manOver, t.result, t.run)) = some (0, true, .rejectLength, false) := by decide
theorem test_illegal : seen (step (flying .reserved 0 0 0)) (fun t => (t.result, t.run)) =
    some (.faultIllegal, false) := by decide

/-! ## The host's commands: 95 section 2.10 and program P9 -/

theorem test_nop_is_harmless : seen (step (State.reset.withFetchWord 3 0)) id = some State.reset := by decide
theorem test_reset_discards : seen (exec .reset (flying .data 0xFF 3 8)) (fun t => (t.run, t.rawLoaded, t.win, t.rd)) =
    some (false, false, 0, 0) := by decide
theorem test_gate_above : seen (exec (.gate 101) State.reset) (·.gateCnt) = some 1 := by decide
theorem test_gate_equal_closes : seen (exec (.gate 100) { State.reset with gateCnt := 1 }) (·.gateCnt) = some 0 := by
  decide
theorem test_capture : seen (exec (.capture [true, true, true, true, true, false, false, false,
      false, false, false, false, false, true, true, true])
      { State.resetOf { Config.default with rawCap := 2 } with gateCnt := 1 })
    (fun t => (t.raw, t.rawLoaded, t.gateCnt)) = some ([(0, 0x1F), (1, 0xE0)], true, 0) := by decide
theorem test_capture_gate_closed : seen (step (State.reset.withFetchWord 3 3)) id = some State.reset := by decide +kernel
theorem test_start_needs_capture : seen (exec .start State.reset) id = some State.reset := by decide
theorem test_start : seen (exec .start { State.reset with rawLoaded := true, bitIdx := 9, st := .data })
    (fun t => (t.run, t.st, t.bitIdx, t.pol, t.len)) = some (true, .preamble, 0, true, 8) := by decide
theorem test_reserved_codes : seen (exec .reserved5 State.reset) id = some State.reset ∧
    seen (exec .reserved6 State.reset) id = some State.reset ∧
    seen (exec .reserved7 State.reset) id = some State.reset := by decide

/-! ## Witnesses

For each statement with hypotheses, concrete states and operands that meet all of them, one for each clause, at
boundary values of the clause. The name after `witness_` is the statement's. -/

/-- A property of the next state, seen through a function, gives the next state. -/
theorem next_of_seen {α : Type} {o : Out} {f : State → α} {x : α} (h : seen o f = some x) :
    ∃ t, o = .next t ∧ f t = x := by
  cases o with
  | next t => exact ⟨t, rfl, Option.some.inj h⟩
  | fault r => cases h
  | refused r => cases h

/-- The conditions of a consumer step, as a decidable check. -/
theorem mayConsume_of {s : State} {strategy : Strategy} {st : SyncState}
    (h : 1 ≤ s.bitLen ∧ s.bitLen ≤ 10 ∧ needFor s.cfg strategy st s.bitLen ≤ s.avail) :
    s.mayConsume strategy st := (mayConsume_iff s strategy st).2 h

/-- A command in the host's slot is issued. -/
theorem issues_of {s : State} {i : Instr} (w : HostWord)
    (h : s.inbox.head?.join = some w ∧ decode (.host w) = .ok i) : s.hostIssues i := ⟨w, h⟩

/-! ### Encodings and the step -/

theorem witness_DispatchMapIsTotalAndDisjoint :
    (flying .reserved 0 0 0).run = true ∧ (flying .reserved 0 0 0).st = .reserved := by decide
theorem witness_DecodeOfEncodeIsIdentity :
    (Instr.gate 7).wellFormed Config.default = true ∧
      (Instr.capture (List.replicate 384 true)).wellFormed Config.default = true := by decide +kernel
theorem witness_StepRunsDecodedInstruction :
    legal (flying .preamble 0 0 8).cfg ∧ (flying .preamble 0 0 8).runs .pre ∧
      legal (State.reset.withFetchWord 3 4).cfg ∧ (State.reset.withFetchWord 3 4).runs .start :=
  ⟨by decide, ⟨rfl, rfl⟩, by decide, ⟨rfl, rfl⟩⟩
/-- The four consumer steps with exactly their demand (8, 20, 9 and 18 samples), and UNPACK and EXHAUST one
sample short of it, at the last raw byte and beyond it. -/
theorem witness_SchedulerPrefersConsumer :
    (∀ x ∈ [(flying .preamble 0 0 8, 8), (flying .delimiter 0 0 20, 8 + 2 + max 2 10), (flying .data 0 0 9, 8 + 1),
        (flyingMan 0 0 18, max (2 * 8 + 2) (max (8 + 6) (8 + 2 + 2)))],
      legal x.1.cfg ∧ x.1.hostSilent ∧ x.1.run = true ∧ x.1.st ≠ .reserved ∧ x.1.len = 8 ∧
        x.2 = (x.1.wr - x.1.rd).toNat) ∧
    (∀ x ∈ [(flying .preamble 0 0 7, 8), (flying .delimiter 0 0 19, 20), (flying .data 0 0 8, 9), (flyingMan 0 0 17, 18)],
      ∀ i ∈ [47, 48], let s := { x.1 with rawIdx := i };
        legal s.cfg ∧ s.hostSilent ∧ s.run = true ∧ s.st ≠ .reserved ∧ s.len = 8 ∧ (s.wr - s.rd).toNat + 1 = x.2) := by
  decide
theorem witness_IdleBlockStays :
    legal State.reset.cfg ∧ State.reset.hostSilent ∧ State.reset.run = false := by decide
theorem witness_CommandsDuringDecodeAreLost :
    ∃ s : State, legal s.cfg ∧ s.run = true ∧ s.hostIssues .start ∧ Instr.start.wellFormed s.cfg = true ∧
      Instr.start ≠ .reset :=
  ⟨(flying .preamble 0 0 8).placeHost (.plain 4), by decide, rfl, issues_of (.plain 4) ⟨rfl, rfl⟩, rfl, by decide⟩
theorem witness_IllegalParametersAreRefused :
    ∀ x ∈ [(1, 32, true), (0, 32, false), (1, 31, false)],
      decide (legal { Config.default with edgeHalf := x.1, edgeMin := 2, maxBits := x.2.1 }) = x.2.2 := by decide

/-! ### The operations without samples -/

theorem witness_IllegalHaltsWithItsCode : let s := flying .reserved 0 0 0;
    legal s.cfg ∧ s.hostSilent ∧ s.run = true ∧ s.st = .reserved := by decide
theorem witness_UnpackMovesOneByteIntoTheWindow :
    { flying .preamble 0 0 24 with rawIdx := 47 }.rawIdx < (flying .preamble 0 0 24).cfg.rawCap := by decide
theorem witness_UnpackBeyondRawFaults :
    (flying .preamble 0 0 24).cfg.rawCap ≤ { flying .preamble 0 0 24 with rawIdx := 48 }.rawIdx := by decide

/-! ### Votes and edges -/

theorem witness_VoteIsMajorityWithTiesUp : (0 : Nat) ≤ 10 ∧ (10 : Nat) ≤ 10 := by decide
/-- A clean edge at 8, and a flat line around 20. -/
theorem witness_EdgeScoreIsFullExactlyAtCleanEdge :
    edgeScore 2 0x00FF00FF 8 true = 2 * 2 ∧
    (∀ k, k < 2 → winRead 0x00FF00FF (20 - BitVec.ofNat 5 (k + 1)) = true ∧
      winRead 0x00FF00FF (20 + BitVec.ofNat 5 k) = true) := by decide
/-- A window that agrees with another on the samples 4 to 10 that the scorer reads, and on no other. -/
theorem witness_BestEdgeIsEarliestOfTheBest :
    ∀ j ∈ [-4, -3, -2, -1, 0, 1, 2, 3],
      winRead (0xFFFFF000 : Window) (8 + BitVec.ofInt 5 j) = winRead (0x00000000 : Window) (8 + BitVec.ofInt 5 j) := by
  decide

/-! ### PRE and DELIM -/

/-- Four ones in eight samples hit, three miss; the lookahead is exactly the demand. -/
theorem witness_PreVotesOneBitPeriod :
    (flying .preamble 0x0F 0 8).mayConsume .nrz .preamble ∧ 8 ≤ 2 * ones 0x0F 0 8 ∧
    (flying .preamble 0x07 0 8).mayConsume .nrz .preamble ∧ ¬ 8 ≤ 2 * ones 0x07 0 8 :=
  ⟨mayConsume_of (by decide), by decide, mayConsume_of (by decide), by decide⟩
/-- Hunt, abort, lock, counted edge, finalize to DATA (length 8) and a length out of range (11), each with
exactly the 20 samples that DELIM demands or more. -/
theorem witness_DelimFollowsTheScorer :
    (∀ s ∈ [flying .delimiter 0xFFFFFFFF 0 20, { flying .delimiter 0xFFFFFFFF 0 20 with locked := true },
        flying .delimiter 0xFF00FFFF 5 25, { flying .delimiter 0xFF00FFFF 8 28 with locked := true },
        { flying .delimiter 0x0000FF00 8 28 with locked := true, cnt := 3, delimStart := 15 },
        { flying .delimiter 0x0000FF00 8 28 with locked := true, cnt := 3, delimStart := 3 }],
      1 ≤ s.bitLen ∧ s.bitLen ≤ 10 ∧ needFor s.cfg s.cfg.strategy .delimiter s.bitLen ≤ s.avail ∧
        s.cfg.edgeHalf + 2 ≤ s.bitLen) ∧
    (bestEdge 2 0xFFFFFFFF 8 true).2 < 3 ∧ 3 ≤ (bestEdge 2 0xFF00FFFF 13 true).2 ∧
    measuredLength Config.default 16 15 = 8 ∧ measuredLength Config.default 16 3 = 11 := by decide
theorem witness_WrapCorrectionRecoversBitLength :
    legal Config.default ∧ Config.default.nominalBitlen ≤ 6 + 2 ∧ 10 ≤ Config.default.nominalBitlen + 2 := by decide
theorem witness_MeasuredLengthKeepsScorerAhead : legal Config.default := by decide

/-! ### The bit decoders -/

/-- Room for the last cell; no room, but the 1 is stuffed; no room, but the 0 ends the frame. -/
theorem witness_DataNrzDecidesResyncsAndAssembles :
    (∀ s ∈ [{ flying .data 0xFF 0 9 with bitIdx := 63 }, { flying .data 0xFF 0 9 with bitIdx := 64, zeroRun := 4 },
        { flying .data 0 0 9 with bitIdx := 64, zeroRun := 4 }],
      1 ≤ s.bitLen ∧ s.bitLen ≤ 10 ∧ needFor s.cfg .nrz .data s.bitLen ≤ s.avail) ∧
    8 ≤ 2 * ones 0xFF 0 8 ∧ ¬ 8 ≤ 2 * ones 0 0 8 ∧ 5 ≤ ((4 : BitVec 3) + 1).toNat := by decide
/-- Silence with a full accumulator, and a bit for the last cell. -/
theorem witness_DataManComparesHalvesAndAssembles :
    (∀ s ∈ [{ flyingMan 0 0 18 with bitIdx := 64 }, { flyingMan 0x00FF 0 18 with bitIdx := 63 }],
      1 ≤ s.bitLen ∧ s.bitLen ≤ 10 ∧ needFor s.cfg .man .data s.bitLen ≤ s.avail ∧ s.bitIdx ≤ s.cfg.maxBits ∧
        s.cfg.edgeHalf + 2 ≤ s.bitLen) ∧
    ones 0 0 6 = 0 ∧ ones 0 8 6 = 0 ∧ ones 0x00FF 0 6 = 6 ∧ ones 0x00FF 8 6 = 0 := by decide
/-- An NRZ symbol of level `b` after three zeros, the last but one cell free. -/
def cleanNrz (b : Bool) : State :=
  { flying .data (if b then 0xFF else 0) 0 9 with bitIdx := 62, zeroRun := 3 }

/-- A Manchester bit with the first group at level `q`. -/
def cleanMan (q : Bool) : State :=
  { flyingMan (if q then 0x00FF else 0xFF00) 0 18 with bitIdx := 62 }

/-- A 1 after three zeros, and a 0 that makes the fourth. -/
theorem witness_CleanNrzSymbolIsStoredWithoutResync (b : Bool) :
    (cleanNrz b).mayConsume .nrz .data ∧ (cleanNrz b).bitIdx + 1 < (cleanNrz b).cfg.maxBits ∧
      (∀ k, k < (cleanNrz b).bitLen → (cleanNrz b).ahead k = b) ∧
      (cleanNrz b).zeroRun.toNat < (cleanNrz b).cfg.stuffThresh ∧ ((cleanNrz b).zeroRun + 1).toNat < 5 :=
  ⟨mayConsume_of (by cases b <;> decide), by cases b <;> decide,
    (by cases b <;> decide : ∀ k, k < 8 → (cleanNrz b).ahead k = b), by cases b <;> decide, by cases b <;> decide⟩
theorem witness_CleanManchesterBitNeverEndsTheFrame (q : Bool) :
    (cleanMan q).mayConsume .man .data ∧ (cleanMan q).cfg.edgeHalf + 2 ≤ (cleanMan q).bitLen ∧
      (cleanMan q).bitIdx + 1 < (cleanMan q).cfg.maxBits ∧
      ∀ k, k < 6 → (cleanMan q).ahead k = q ∧ (cleanMan q).ahead ((cleanMan q).bitLen + k) = !q :=
  ⟨mayConsume_of (by cases q <;> decide), by cases q <;> decide, by cases q <;> decide,
    (by cases q <;> decide : ∀ k, k < 6 → (cleanMan q).ahead k = q ∧ (cleanMan q).ahead (8 + k) = !q)⟩
/-- Bit lengths 0 and 11; the four steps one sample short; a bit length 3 with `EDGE_HALF` 2. -/
theorem witness_ConsumerStepsStopOutsideTheirConditions :
    ({ State.reset with len := 0 } : State).bitLen < 1 ∧ 10 < ({ State.reset with len := 11 } : State).bitLen ∧
    (let s := flying .data 0 0 7;
      1 ≤ s.bitLen ∧ s.bitLen ≤ 10 ∧ s.avail < s.bitLen) ∧
    (flying .data 0 0 19).avail < 8 + 2 + max 2 10 ∧ (flying .data 0 0 8).avail < 8 + 1 ∧
    (flying .data 0 0 17).avail < max (2 * 8 + 2) (max (8 + 6) (8 + 2 + 2)) ∧
    (let s := { flying .delimiter 0 0 20 with len := 3 };
      (1 ≤ s.bitLen ∧ s.bitLen ≤ 10 ∧ needFor s.cfg s.cfg.strategy .delimiter s.bitLen ≤ s.avail) ∧
      s.bitLen < s.cfg.edgeHalf + 2) := by decide
/-- `bit_idx` beyond the capacity; at it with a bit to store (NRZ 1 and 0, Manchester); the scorer behind `rd`. -/
theorem witness_DataStepsStopOutsideTheirConditions :
    (∀ s ∈ [{ flying .data 0xFF 0 9 with bitIdx := 65 }, { flying .data 0xFF 0 9 with bitIdx := 64, zeroRun := 3 },
        { flying .data 0 0 9 with bitIdx := 64, zeroRun := 3 }],
      1 ≤ s.bitLen ∧ s.bitLen ≤ 10 ∧ needFor s.cfg .nrz .data s.bitLen ≤ s.avail ∧ s.cfg.maxBits ≤ s.bitIdx) ∧
    (∀ s ∈ [{ flyingMan 0x00FF 0 18 with bitIdx := 65 }, { flyingMan 0x00FF 0 18 with bitIdx := 64 },
        { flyingMan 0x00FF 0 18 with bitIdx := 63, len := 3 }],
      1 ≤ s.bitLen ∧ s.bitLen ≤ 10 ∧ needFor s.cfg .man .data s.bitLen ≤ s.avail) ∧
    (let s := { flyingMan 0x00FF 0 18 with bitIdx := 63, len := 3 };
      s.bitLen < s.cfg.edgeHalf + 2 ∧ s.bitIdx < s.cfg.maxBits ∧ ones s.win s.rd 6 = 6 ∧ ones s.win (s.rd + 3) 6 = 5) := by
  decide

/-! ### The validator -/

/-- Without error correction: a frame of three bytes, a checksum that does not match, and frame F1; with it, whatever
the open function answers is one of the two first cases. -/
theorem witness_ValidateChecksInOrder :
    (let s := { flying .data 0 24 8 with acc := accP1, bitIdx := 31 };
      s.frameOut.wf ∧ s.cfg.eccEnable = false ∧ (accBytes s.cfg s.acc (s.bitIdx / 8)).length ≠ s.cfg.frameSize) ∧
    (let s := { flying .data 0 24 8 with acc := accP1.set 0 false, bitIdx := 35, frameOut := [(0, 0x1F), (2, 0xE0)] };
      s.frameOut.wf ∧ s.cfg.eccEnable = false ∧ (accBytes s.cfg s.acc (s.bitIdx / 8)).length = s.cfg.frameSize ∧
        frameChecksum s.cfg (accBytes s.cfg s.acc 4) ≠ frameField s.cfg (accBytes s.cfg s.acc 4)) ∧
    (let s := { flying .data 0 24 8 with acc := accP1, bitIdx := 35 };
      s.frameOut.wf ∧ s.cfg.eccEnable = false ∧ (accBytes s.cfg s.acc (s.bitIdx / 8)).length = s.cfg.frameSize ∧
        frameChecksum s.cfg (accBytes s.cfg s.acc 4) = frameField s.cfg (accBytes s.cfg s.acc 4)) ∧
    (let s := { State.reset with cfg := { Config.default with eccEnable := true } };
      s.frameOut.wf ∧ s.cfg.eccEnable = true) := by decide
theorem witness_AccByteFollowsBitOrder :
    (0 : Nat) < 8 ∧ (7 : Nat) < 8 ∧ Config.default.payloadMsbFirst = true ∧
      { Config.default with payloadMsbFirst := false }.payloadMsbFirst = false := by decide
theorem witness_SingleBitFlipIsRejected : let frame : List Byte := [0xA5, 0x3C, 0xA8, 0x2A]
    3 ≤ Config.default.frameSize ∧ frame.length = Config.default.frameSize ∧
      frameChecksum Config.default frame = frameField Config.default frame ∧ 3 < Config.default.frameSize ∧
      (7 : Nat) < 8 := by decide
theorem witness_FrameValidMeansCheckedFrame :
    let s := { flying .data 0 24 8 with acc := accP1, bitIdx := 35, zeroRun := 4 };
    s.frameOut.wf ∧ s.run = true ∧ s.result ≠ .frameValid ∧ ∃ t, step s = .next t ∧ t.result = .frameValid :=
  ⟨by decide, rfl, by decide, next_of_seen (by decide)⟩

/-! ### The host's commands -/

theorem witness_GateCountsReadingsAboveThreshold :
    let s := State.reset;
    s.run = false ∧ s.cfg.rssiThresh < 101 ∧ s.gateCnt < s.cfg.rssiHold ∧
      s.cfg.rssiHold ≤ { s with gateCnt := 1 }.gateCnt ∧ 100 ≤ s.cfg.rssiThresh := by decide
theorem witness_CaptureFillsRawInSampleOrder :
    let s := { State.reset with gateCnt := 1 };
    s.raw.wf ∧ s.run = false ∧ s.gateCnt = s.cfg.rssiHold ∧
      (List.replicate 384 true).length = 8 * s.cfg.rawCap := by decide +kernel
theorem witness_StartInitialisesTheDecode :
    let s := { State.reset with rawLoaded := true };
    s.run = false ∧ s.rawLoaded = true := by decide
theorem witness_IllegalCommandsChangeNothing :
    (flying .preamble 0 0 0).run = true ∧ State.reset.gateCnt ≠ State.reset.cfg.rssiHold ∧
      State.reset.rawLoaded = false ∧ (List.replicate 384 true).length = 8 * State.reset.cfg.rawCap := by
  decide +kernel
theorem witness_CaptureOfAnotherSizeIsRefused :
    (List.replicate 383 true).length ≠ 8 * State.reset.cfg.rawCap := by decide +kernel
theorem witness_AcquireStartsADecode :
    legal Config.default ∧ Config.default.rssiThresh < 101 ∧
      (List.replicate 48 (0xFF : Byte)).length = Config.default.rawCap := by decide

/-! ### The whole machine -/

/-- Program P1 after its first UNPACK, in PREAMBLE; the burst's first byte is all ones. -/
def afterUnpack : State :=
  { flying .preamble 0xFF 0 8 with raw := [(0, 0xFF)], rawIdx := 1 }

/-- A decode in DATA with the last cell of the accumulator free, and all raw bytes unpacked. -/
def lastCell : State :=
  { flying .data 0xFF 0 24 with
    raw := [(0, 0xFF)], rawIdx := 7, cnt := 4, locked := true, bitIdx := 63, zeroRun := 4, len := 10 }

/-- A burst loaded, no decode begun. -/
def loaded : State :=
  { State.reset with raw := [(0, 0xFF)], rawLoaded := true }

theorem inv_afterUnpack : Inv afterUnpack := by constructor <;> decide
theorem inv_lastCell : Inv lastCell := by constructor <;> decide
theorem inv_loaded : Inv loaded := by constructor <;> decide

/-- Program P1 after its halt, and the same with the other outcomes of the validator. -/
def halted (result : Result) (bitIdx nbytes : Nat) : State :=
  { flying .data 0 0 8 with
    run := false, result := result, nbytes := nbytes, acc := accP1, bitIdx := bitIdx, zeroRun := 5, rawIdx := 45
    raw := [(0, 0xFF)], frameOut := [(0, 0xA5), (1, 0x3C), (2, 0xA8), (3, 0x2A)] }

theorem inv_halted_frameValid : Inv (halted .frameValid 35 4) := by constructor <;> decide
theorem inv_halted_rejectLength : Inv (halted .rejectLength 31 3) := by constructor <;> decide
theorem inv_halted_rejectChecksum : Inv (halted .rejectChecksum 39 4) := by constructor <;> decide

theorem witness_InvariantHoldsAtReset : legal Config.default := by decide
theorem witness_EveryStepKeepsTheInvariant :
    (Inv afterUnpack ∧ ∃ t, step afterUnpack = .next t ∧ t.st = .delimiter) ∧
    (Inv lastCell ∧ ∃ t, step lastCell = .next t ∧ (t.rd, t.zeroRun) = (10, 0)) :=
  ⟨⟨inv_afterUnpack, next_of_seen (by decide)⟩, ⟨inv_lastCell, next_of_seen (by decide)⟩⟩
theorem witness_LegalRunNeverStops :
    Inv afterUnpack ∧ ∀ i, afterUnpack.hostIssues i → i.wellFormed afterUnpack.cfg = true :=
  ⟨inv_afterUnpack, fun _ ⟨_, h, _⟩ => by simp [afterUnpack, flying, State.reset, State.resetOf] at h⟩
/-- A consumer step (PRE with exactly its demand) and an UNPACK (one sample short). -/
theorem witness_RingIsNeverOverrun :
    (Inv afterUnpack ∧ afterUnpack.hostSilent ∧ afterUnpack.run = true ∧ afterUnpack.need ≤ afterUnpack.avail ∧
      ∃ t, step afterUnpack = .next t ∧ t.avail = 8) ∧
    (let s := { afterUnpack with rd := 1 };
      Inv s ∧ s.hostSilent ∧ s.run = true ∧ s.avail < s.need ∧ s.rawIdx < s.cfg.rawCap ∧
        ∃ t, step s = .next t ∧ t.avail = 15) :=
  ⟨⟨inv_afterUnpack, by decide, rfl, by decide, next_of_seen (by decide)⟩,
    by constructor <;> decide, by decide, rfl, by decide, by decide, next_of_seen (by decide)⟩
/-- A window with the nine samples of DATA_NRZ as they are, and every other one changed. -/
theorem witness_ConsumerReadsOnlyItsLookahead :
    (∀ k, k < 9 → winRead 0xFFFFFEFF (0 + BitVec.ofNat 5 k) = (flying .data 0x000000FF 0 9).ahead k) ∧
    (flying .data 0x000000FF 0 9).bitLen + 1 = 9 ∧
    (∃ t, exec .dataNrz (flying .data 0x000000FF 0 9) = .next t ∧ t.rd = 8) ∧
    exec .dataNrz (flying .data 0x000000FF 0 8) = .fault .lookahead ∧
    exec .dataNrz { flying .data 0x000000FF 0 8 with len := 0 } = .refused .bitLength :=
  ⟨by decide, by decide, next_of_seen (by decide), rfl, rfl⟩
theorem witness_StateMovesForwardOnly :
    (∃ t, step afterUnpack = .next t ∧ (t.run, t.st) = (true, .delimiter)) ∧
    (∃ t, step { loaded with inbox := [some (.plain 4)] } = .next t ∧ (t.run, t.st) = (true, .preamble)) ∧
    (∃ t, step (flying .reserved 0 0 0) = .next t ∧ t.st = .reserved) :=
  ⟨next_of_seen (by decide), next_of_seen (by decide), next_of_seen (by decide)⟩
theorem witness_BitLengthIsFixedInData :
    ∃ t, step lastCell = .next t ∧ (lastCell.st, t.st, t.len) = (.data, .data, 10) := next_of_seen (by decide)
theorem witness_AccumulatorIsAppendOnly :
    ∃ t, step (flying .data 0xFF 0 9) = .next t ∧ (t.st, t.bitIdx) = (.data, 1) := next_of_seen (by decide)
theorem witness_RunChangesOnlyByStartHaltAndReset :
    (∃ t, step { loaded with inbox := [some (.plain 4)] } = .next t ∧ (loaded.run, t.run) = (false, true)) ∧
    (∃ t, step { afterUnpack with inbox := [some (.plain 1)] } = .next t ∧ (t.run, t.result) = (false, .none)) ∧
    (∃ t, step { afterUnpack with rd := 1, rawIdx := 48 } = .next t ∧ (t.run, t.result) = (false, .abortExhausted)) :=
  ⟨next_of_seen (by decide), next_of_seen (by decide), next_of_seen (by decide)⟩
/-- A CAPTURE that writes RAW, and the last step of program P1, which writes FRAME_OUT. -/
theorem witness_MemoriesHaveOneWriterEach :
    (∃ t, step { State.resetOf { Config.default with rawCap := 1 } with
        gateCnt := 1, inbox := [some ⟨3, 0, [0x1F]⟩] } = .next t ∧ t.raw = [(0, 0x1F)]) ∧
    (∃ t, step { flying .data 0 24 8 with acc := accP1, bitIdx := 35, zeroRun := 4 } = .next t ∧
      t.frameOut = [(0, 0xA5), (1, 0x3C), (2, 0xA8), (3, 0x2A)]) :=
  ⟨next_of_seen (by decide), next_of_seen (by decide)⟩
theorem witness_EveryDecodeHalts :
    Inv loaded ∧ loaded.run = false ∧ loaded.rawLoaded = true ∧ loaded.inbox = [] ∧
      ∃ t, exec .start loaded = .next t ∧ t.run = true :=
  ⟨inv_loaded, rfl, rfl, rfl, next_of_seen (by decide)⟩
/-- A consumer step that goes on, and the last step of program P1, which halts. -/
theorem witness_EveryRunningStepLeavesLessWork :
    (Inv afterUnpack ∧ afterUnpack.hostSilent ∧ afterUnpack.run = true ∧
      ∃ t, step afterUnpack = .next t ∧ (t.run, t.workLeft, afterUnpack.workLeft) = (true, 431, 432)) ∧
    (Inv lastCell ∧ lastCell.hostSilent ∧ lastCell.run = true) :=
  ⟨⟨inv_afterUnpack, by decide, rfl, next_of_seen (by decide)⟩, inv_lastCell, by decide, rfl⟩
/-- Two blocks in the same decode, one with another gate count and an old frame: in flight, and just before and after
the frame is found valid. -/
theorem witness_LockstepIsKeptByEveryStep :
    (let s' := { afterUnpack with gateCnt := 1, frameOut := [(0, 5)] };
      Lockstep afterUnpack s' ∧ afterUnpack.hostSilent ∧ ∃ t, step afterUnpack = .next t ∧ t.st = .delimiter) ∧
    (let s := { flying .data 0 24 8 with acc := accP1, bitIdx := 35, zeroRun := 4 };
      Lockstep s { s with frameOut := [(1, 7), (9, 9)] } ∧ s.hostSilent ∧
        ∃ t, step s = .next t ∧ t.result = .frameValid) ∧
    (let s := halted .frameValid 35 4;
      Lockstep s { s with frameOut := s.frameOut ++ [(9, 9)] } ∧ s.hostSilent ∧ ∃ t, step s = .next t ∧ t.run = false) :=
  ⟨⟨⟨rfl, by decide, by decide, by decide⟩, by decide, next_of_seen (by decide)⟩,
    ⟨⟨rfl, by decide, by decide, by decide⟩, by decide, next_of_seen (by decide)⟩,
    ⟨⟨rfl, by decide, by decide, by decide⟩, by decide, next_of_seen (by decide)⟩⟩
/-- Two blocks with the same RAW and different pasts, after START and one step. -/
theorem witness_DecodeDependsOnRawAlone :
    let s' := { loaded with gateCnt := 1, win := 0xAB, rd := 7, bitIdx := 9, frameOut := [(0, 5)] };
    loaded.cfg = s'.cfg ∧ loaded.raw = s'.raw ∧ loaded.inbox = [] ∧ s'.inbox = [] ∧ loaded.frameOut.wf ∧ s'.frameOut.wf ∧
      loaded.run = false ∧ s'.run = false ∧ loaded.rawLoaded = true ∧ s'.rawLoaded = true ∧
      (∃ t, exec .start loaded = .next t ∧ ∃ u, Sys2Proof.core.run 1 t = .next u ∧ u.wr = 8) ∧
      ∃ t', exec .start s' = .next t' ∧ t'.run = true :=
  ⟨rfl, rfl, rfl, rfl, by decide, by decide, rfl, rfl, rfl, rfl, ⟨_, rfl, _, rfl, by decide⟩, next_of_seen (by decide)⟩
theorem witness_AssemblerUndoesStuffing : legal { Config.default with stuffThresh := 1 } ∧ legal Config.default := by
  decide
theorem witness_SentFrameIsAccepted :
    let s := State.reset;
    let payload : List Byte := [0xA5, 0x3C];
    s.frameOut.wf ∧ s.cfg.eccEnable = false ∧ 3 ≤ s.cfg.frameSize ∧ payload.length + 2 = s.cfg.frameSize ∧
      (List.replicate 7 true).length < 8 ∧ ([] : List Bool).length < 8 := by decide

end Sys2Proof.Tests
end

/-! Proofs of the scope statements (00_scope.md R9, R10): first what a refusal and a measured length can be, each
said once, then the statements. -/

namespace Sys2Proof.Machine

/-! ## What a refusal can be -/

/-- A consumer step refuses its bit length (U2), or what its body refuses. -/
theorem withLookahead_refused {strategy : Strategy} {st : SyncState} {s : State} {body : Out} {r : Refusal}
    (h : withLookahead strategy st s body = .refused r) : r = .bitLength ∨ body = .refused r := by
  unfold withLookahead at h
  split at h
  · split at h
    · exact .inr h
    · injection h
  · injection h with h
    exact .inl h.symm

/-- The guard of the edge scorer faults; it refuses nothing of its own. -/
theorem withScorer_refused {s : State} {body : Out} {r : Refusal} (h : withScorer s body = .refused r) :
    body = .refused r := by
  unfold withScorer at h
  split at h
  · exact h
  · injection h

/-- The guard of the accumulator faults; it refuses nothing of its own. -/
theorem withRoom_refused {s : State} {a : Assembled} {body : Out} {r : Refusal}
    (h : withRoom s a body = .refused r) : body = .refused r := by
  unfold withRoom at h
  split at h
  · exact h
  · injection h

theorem execUnpack_not_refused (s : State) (r : Refusal) : execUnpack s ≠ .refused r := by
  unfold execUnpack
  split <;> exact nofun

theorem execGate_not_refused (rssi : Nat) (s : State) (r : Refusal) : execGate rssi s ≠ .refused r := by
  unfold execGate
  split <;> exact nofun

theorem execStart_not_refused (s : State) (r : Refusal) : execStart s ≠ .refused r := by
  unfold execStart
  split <;> exact nofun

theorem execCapture_refused {samples : List Bool} {s : State} {r : Refusal}
    (h : execCapture samples s = .refused r) : r = .captureSize := by
  unfold execCapture at h
  split at h
  · split at h <;> injection h
  · injection h with h
    exact h.symm

theorem execPre_refused {s : State} {r : Refusal} (h : execPre s = .refused r) : r = .bitLength :=
  (withLookahead_refused h).resolve_right nofun

theorem execDelim_refused {s : State} {r : Refusal} (h : execDelim s = .refused r) : r = .bitLength :=
  (withLookahead_refused h).resolve_right fun hbody => nomatch withScorer_refused hbody

theorem execDataNrz_refused {s : State} {r : Refusal} (h : execDataNrz s = .refused r) : r = .bitLength :=
  (withLookahead_refused h).resolve_right fun hbody => nomatch withRoom_refused hbody

theorem execDataMan_refused {s : State} {r : Refusal} (h : execDataMan s = .refused r) : r = .bitLength := by
  refine (withLookahead_refused h).resolve_right fun hbody => ?_
  have hroom := withRoom_refused hbody
  split at hroom
  · injection hroom
  · exact nomatch withScorer_refused hroom

/-- An operation refuses nothing but a bit length (the four consumer steps) and a size of CAPTURE. -/
theorem exec_refused {i : Instr} {s : State} {r : Refusal} (h : exec i s = .refused r) :
    r = .bitLength ∨ r = .captureSize := by
  cases i with
  | idle | exhaust | illegal | nop | reset | reserved5 | reserved6 | reserved7 => injection h
  | unpack => exact absurd h (execUnpack_not_refused s r)
  | gate rssi => exact absurd h (execGate_not_refused rssi s r)
  | start => exact absurd h (execStart_not_refused s r)
  | pre => exact .inl (execPre_refused h)
  | delim => exact .inl (execDelim_refused h)
  | dataNrz => exact .inl (execDataNrz_refused h)
  | dataMan => exact .inl (execDataMan_refused h)
  | capture samples => exact .inr (execCapture_refused h)

/-- A step of a legal block can be refused, but not for its parameters. -/
theorem step_refused_of_legal {s : State} {r : Refusal} (hc : legal s.cfg) (h : step s = .refused r) :
    r = .undecodable ∨ r = .bitLength ∨ r = .captureSize := by
  rw [step, if_pos hc] at h
  split at h
  · split at h
    · exact .inr (exec_refused h)
    · injection h with h
      exact .inr (.inr h.symm)
  · injection h with h
    exact .inl h.symm

/-- The parameters are refused exactly where they are not legal (70_reset_and_hazards.md R208). -/
theorem step_refused_illegalParameters_iff (s : State) :
    step s = .refused .illegalParameters ↔ ¬ legal s.cfg := by
  constructor
  · intro h hc
    obtain hr | hr | hr := step_refused_of_legal hc h <;> cases hr
  · intro hc
    rw [step, if_neg hc]

/-! ## What a measured length can be -/

/-- The wrap correction of 41_sync_clock.md R90 reads the distance since the lock as the one number of its class
modulo 32 in the interval of 32 values from `MIN_DIST` on. -/
theorem exists_measuredLength_eq_div {c : Config} (hmin : c.minDist ≤ 31) (rd start : Cursor) :
    ∃ d, c.minDist ≤ d ∧ d < 32 + c.minDist ∧ d % 32 = (rd - start).toNat ∧
      measuredLength c rd start = d / c.delimLen := by
  have hlt : (rd - start).toNat < 32 := (rd - start).isLt
  by_cases hwrap : (rd - start).toNat < c.minDist
  · exact ⟨(rd - start).toNat + 32, by omega, by omega, by omega, by rw [measuredLength, if_pos hwrap]⟩
  · exact ⟨(rd - start).toNat, by omega, by omega, by omega, by rw [measuredLength, if_neg hwrap]⟩

/-- Any distance in that interval is measured as it is, whatever the position of the lock. -/
theorem measuredLength_add_ofNat {c : Config} (hmin : c.minDist ≤ 31) (start : Cursor) {n : Nat}
    (hlow : c.minDist ≤ n) (hhigh : n < 32 + c.minDist) :
    measuredLength c (start + BitVec.ofNat 5 n) start = n / c.delimLen := by
  obtain ⟨d, hdlow, hdhigh, hmod, heq⟩ := exists_measuredLength_eq_div hmin (start + BitVec.ofNat 5 n) start
  have hdist : (start + BitVec.ofNat 5 n - start).toNat = n % 32 := by
    rw [add_sub_cancel_left, BitVec.toNat_ofNat]
  have hdn : d = n := by omega
  rw [heq, hdn]

/-! ## The statements -/

/-- Settles O10: K1 to K9 are the model's own, the ranges of R9 that `inRanges` leaves out are K7, K8 and K9, and no
operation of a legal block answers this refusal. -/
theorem illegalParametersAreRefused : Obligations.IllegalParametersAreRefused := by
  intro s c ranges k1 k2 k3 k4 k5 k6 k7 k8 k9 meets
  have hlegal : legal c ↔ meets := by
    refine and_congr_left fun constraints => ?_
    obtain ⟨-, -, -, -, -, -, hstuff, hframe, hedgeMin⟩ := constraints
    simp only [ranges, termThresh] at hstuff ⊢
    omega
  exact ⟨hlegal, (step_refused_illegalParameters_iff s).trans (not_congr hlegal)⟩

/-- Settles O21: by K4 and K5 the distance `DELIM_LEN * b` lies in the interval that the wrap correction reads
exactly. -/
theorem wrapCorrectionRecoversBitLength : Obligations.WrapCorrectionRecoversBitLength := by
  intro c start b ⟨⟨_, ⟨hdelim, _⟩, _, ⟨_, hmin⟩, _⟩, ⟨_, _, _, hK4, hK5, _⟩⟩ hbLow hbHigh
  have hlow : c.minDist ≤ c.delimLen * b := hK4.trans (Nat.mul_le_mul_left _ (by omega))
  have hhigh : c.delimLen * b < 32 + c.minDist := (Nat.mul_le_mul_left _ hbHigh).trans_lt hK5
  rw [measuredLength_add_ofNat hmin start hlow hhigh, Nat.mul_div_cancel_left b hdelim]

/-- Settles O22: the corrected distance is at least `MIN_DIST`, and K6 bounds `MIN_DIST / DELIM_LEN`. -/
theorem measuredLengthKeepsScorerAhead : Obligations.MeasuredLengthKeepsScorerAhead := by
  intro c rd start ⟨⟨_, _, _, ⟨_, hmin⟩, _⟩, ⟨_, _, _, _, _, hK6, _⟩⟩
  obtain ⟨d, hlow, -, -, heq⟩ := exists_measuredLength_eq_div hmin rd start
  calc c.edgeHalf + 2 ≤ c.minDist / c.delimLen := hK6
    _ ≤ d / c.delimLen := Nat.div_le_div_right hlow
    _ = measuredLength c rd start := heq.symm

end Sys2Proof.Machine

/-! Proof of the reset statement (10_state.md R28, 70_reset_and_hazards.md R200). The invariant is shown of the reset
registers beside any memories and any schedule, because RESET keeps those (45_host_ops.md R157). -/

namespace Sys2Proof.Machine

/-- `L` has the nominal length after reset: four bits hold it. -/
theorem resetOf_bitLen {c : Config} (hc : legal c) : (State.resetOf c).bitLen = c.nominalBitlen := by
  obtain ⟨⟨⟨_, hmax⟩, _⟩, _⟩ := hc
  exact Nat.mod_eq_of_lt (hmax.trans_lt (by decide))

/-- The reset registers of a legal block meet the invariant, whatever the host will issue and whatever canonical bytes
in range `RAW` and `FRAME_OUT` hold. The bounds on counters hold as these are 0; the clauses about a running decode, DATA
or an outcome are void, as `RUN = 0`, STATE is PREAMBLE and RESULT is NONE. -/
theorem inv_resetOf_with {c : Config} (hc : legal c) (inbox : List (Option HostWord)) {raw frameOut : Memory}
    (hraw : raw.wf) (hrawIdx : ∀ x ∈ raw, x.1 < c.rawCap)
    (hframe : frameOut.wf) (hframeIdx : ∀ x ∈ frameOut, x.1 < c.frameSize) :
    Inv { State.resetOf c with inbox := inbox, raw := raw, frameOut := frameOut } := by
  have hlen := resetOf_bitLen hc
  have ⟨⟨⟨hlow, hhigh⟩, _⟩, _⟩ := hc
  exact {
    legalParameters := hc
    rawForm := hraw
    rawIndices := hrawIdx
    frameForm := hframe
    frameIndices := hframeIdx
    accCells := List.length_replicate
    rawIdxRange := Nat.zero_le _
    wrFollowsRaw := rfl
    notReserved := nofun
    lengthRange := ⟨(by decide : 1 ≤ 4).trans (hlow.trans_eq hlen.symm), hlen.trans_le hhigh⟩
    lengthNominal := fun _ => hlen
    lengthData := nofun
    cntRange := Nat.zero_le _
    cntOpen := nofun
    cntLocked := fun _ => rfl
    bitIdxRange := Nat.zero_le _
    bitIdxOpen := nofun
    bitIdxData := fun _ => rfl
    zeroRunRange := Nat.zero_le _
    zeroRunOpen := nofun
    zeroRunData := fun _ => rfl
    zeroRunNrz := fun _ => rfl
    overMan := nofun
    resultOpen := nofun
    nbytesRange := fun _ => Nat.zero_le _
    nbytesClosed := fun _ => rfl
    nbytesFrame := nofun
    nbytesLength := nofun
    nbytesEcc := nofun
    exhaustedRaw := nofun
    badDelimiter := nofun
    frameChecked := nofun
    resultLegal := nofun
    gateRange := Nat.zero_le _
    runLoaded := nofun }

/-- Settles O41: the reset state lists no byte of `RAW` or `FRAME_OUT`, and the parameters of `State.reset` are
legal. -/
theorem invariantHoldsAtReset : Obligations.InvariantHoldsAtReset := by
  have atReset (c : Config) (hc : legal c) : Inv (State.resetOf c) :=
    inv_resetOf_with hc [] Memory.wf_nil nofun Memory.wf_nil nofun
  exact ⟨atReset, atReset Config.default (by decide)⟩

end Sys2Proof.Machine

/-! Proofs of the memory statements (20_memory.md R30 to R42). First the scheduler as a function of the state, then
what each operation does to the memories, the cursors and the accumulator, each said once; then the invariant, and the
statements. -/

namespace Sys2Proof.Machine

/-! ## The scheduler -/

/-- The micro-operation of a running block whose lookahead suffices (30_encoding.md R63). -/
def consumerOf (strategy : Strategy) (st : SyncState) : Instr :=
  match st, strategy with
  | .preamble, _ => .pre
  | .delimiter, _ => .delim
  | .data, .nrz => .dataNrz
  | .data, .man => .dataMan
  | .reserved, _ => .illegal

/-- The rule of 20_memory.md R39 as a function of the state. -/
def State.scheduled (s : State) : Instr :=
  if s.run then
    if s.need ≤ s.avail then consumerOf s.cfg.strategy s.st
    else if s.rawIdx < s.cfg.rawCap then .unpack else .exhaust
  else .idle

/-! The demands of 20_memory.md R38, one for each STATE and strategy. -/

theorem need_of_preamble {s : State} (hst : s.st = .preamble) : s.need = s.bitLen := by
  rw [State.need, hst, needFor]

theorem need_of_delimiter {s : State} (hst : s.st = .delimiter) :
    s.need = s.bitLen + 2 + max s.cfg.edgeHalf 10 := by
  rw [State.need, hst, needFor]

theorem need_of_nrz {s : State} (hst : s.st = .data) (hstrategy : s.cfg.strategy = .nrz) :
    s.need = s.bitLen + 1 := by
  rw [State.need, hst, hstrategy, needFor]

theorem need_of_man {s : State} (hst : s.st = .data) (hstrategy : s.cfg.strategy = .man) :
    s.need = max (2 * s.bitLen + 2) (max (s.bitLen + 6) (s.bitLen + 2 + s.cfg.edgeHalf)) := by
  rw [State.need, hst, hstrategy, needFor]

theorem need_of_reserved {s : State} (hst : s.st = .reserved) : s.need = 0 := by
  rw [State.need, hst, needFor]

/-- The decoder reads the rule of R39 off the six bits. The words `10xx11` are left out: they do not occur. -/
theorem decodeDispatch_bits (strategy : Strategy) (st : SyncState) (run enough more : Bool)
    (h : st = .reserved → enough = true) :
    decodeDispatch (BitVec.ofBool run ++ BitVec.ofBool enough ++ BitVec.ofBool more ++
        BitVec.ofBool (strategyCode strategy) ++ syncCode st) =
      .ok (if run then if enough then consumerOf strategy st else if more then .unpack else .exhaust else .idle) := by
  revert run enough more
  cases strategy <;> cases st <;> decide

/-- The reserved STATE demands nothing, so its lookahead always suffices (30_encoding.md R62). -/
theorem enough_of_reserved {s : State} (h : s.st = .reserved) : s.enough = true := by
  simp [State.enough, need_of_reserved h]

/-- The dispatch word decodes to what the rule says. -/
theorem decode_dispatchWord (s : State) : decode (.block (dispatchWord s)) = .ok s.scheduled := by
  refine (decodeDispatch_bits s.cfg.strategy s.st s.run s.enough s.more enough_of_reserved).trans ?_
  simp only [State.scheduled, State.enough, State.more, decide_eq_true_eq]

theorem consumerOf_wellFormed (c : Config) (strategy : Strategy) (st : SyncState) :
    (consumerOf strategy st).wellFormed c = true := by
  cases strategy <;> cases st <;> rfl

theorem scheduled_wellFormed (s : State) : s.scheduled.wellFormed s.cfg = true := by
  unfold State.scheduled
  split
  · split
    · exact consumerOf_wellFormed _ _ _
    · split <;> rfl
  · rfl

theorem scheduled_of_idle {s : State} (hrun : s.run = false) : s.scheduled = .idle :=
  if_neg (by simp [hrun])

theorem scheduled_of_enough {s : State} (hrun : s.run = true) (h : s.need ≤ s.avail) :
    s.scheduled = consumerOf s.cfg.strategy s.st :=
  (if_pos hrun).trans (if_pos h)

theorem scheduled_of_short {s : State} (hrun : s.run = true) (h : s.avail < s.need) :
    s.scheduled = if s.rawIdx < s.cfg.rawCap then .unpack else .exhaust :=
  (if_pos hrun).trans (if_neg (not_le.2 h))

/-- With no command of the host, a step of a legal block is the scheduled operation. -/
theorem step_of_silent {s : State} (hc : legal s.cfg) (h : s.hostSilent) : step s = exec s.scheduled s.nextSlot := by
  rw [step, if_pos hc, fetch_of_silent h, decode_dispatchWord]
  exact if_pos (scheduled_wellFormed s)

/-- The operations that the host issues (30_encoding.md R66, R67). -/
def isCommand : Instr → Bool
  | .nop | .reset | .gate _ | .capture _ | .start | .reserved5 | .reserved6 | .reserved7 => true
  | .idle | .exhaust | .unpack | .pre | .delim | .dataNrz | .dataMan | .illegal => false

theorem isCommand_decodeHost (w : HostWord) : isCommand (decodeHost w) = true := by
  unfold decodeHost
  split <;> rfl

theorem isCommand_of_hostIssues {s : State} {i : Instr} (h : s.hostIssues i) : isCommand i = true := by
  obtain ⟨w, -, hw⟩ := h
  injection hw with hw
  exact hw ▸ isCommand_decodeHost w

/-- With a command of the host, a step of a legal block is that command, where it is well-formed. -/
theorem step_of_hostIssues {s : State} {i : Instr} (hc : legal s.cfg) (h : s.hostIssues i)
    (hi : i.wellFormed s.cfg = true) : step s = exec i s.nextSlot := by
  obtain ⟨w, hw, hdecode⟩ := h
  rw [step, if_pos hc, fetch_of_command hw, hdecode]
  exact if_pos hi

/-- What a step that goes on has run: the scheduled operation, or the host's command. -/
theorem step_next_cases {s t : State} (h : step s = .next t) :
    (s.hostSilent ∧ exec s.scheduled s.nextSlot = .next t) ∨
      ∃ i, s.hostIssues i ∧ exec i s.nextSlot = .next t := by
  obtain ⟨-, i, ⟨hi, -⟩, hexec⟩ := step_next.1 h
  cases hcmd : s.inbox.head?.join with
  | none =>
    rw [fetch_of_silent hcmd, decode_dispatchWord] at hi
    injection hi with hi
    exact .inl ⟨hcmd, hi ▸ hexec⟩
  | some w =>
    rw [fetch_of_command hcmd] at hi
    exact .inr ⟨i, ⟨w, hcmd, hi⟩, hexec⟩

/-! ## The host's commands -/

/-- What a host command that goes on has done: nothing, or what one of the four commands does where it is legal. -/
inductive CommandStep (s : State) (i : Instr) : State → Prop where
  | unchanged : CommandStep s i s
  | reset : i = .reset →
      CommandStep s i { State.resetOf s.cfg with inbox := s.inbox, raw := s.raw, frameOut := s.frameOut }
  | gate (rssi : Nat) : CommandStep s i { s with gateCnt := gateCount s.cfg s.gateCnt rssi }
  | capture (samples : List Bool) : i = .capture samples → s.run = false →
      CommandStep s i
        { s with raw := s.raw.writeBytes 0 (packSamples s.cfg.rawCap samples), rawLoaded := true, gateCnt := 0 }
  | start : i = .start → s.run = false → s.rawLoaded = true → CommandStep s i { s.initDecode with run := true }

theorem commandStep_of_exec {i : Instr} {s t : State} (hi : isCommand i = true) (h : exec i s = .next t) :
    CommandStep s i t := by
  cases i with
  | idle | exhaust | unpack | pre | delim | dataNrz | dataMan | illegal => cases hi
  | nop | reserved5 | reserved6 | reserved7 =>
    obtain rfl := next_inj.1 h
    exact .unchanged
  | reset =>
    obtain rfl := next_inj.1 h
    exact .reset rfl
  | gate rssi =>
    have ht := execGate_next.1 h
    split at ht
    · exact ht ▸ .gate rssi
    · exact ht ▸ .unchanged
  | capture samples =>
    obtain ⟨-, ht⟩ := execCapture_next.1 h
    split at ht
    next hlegal =>
      simp only [State.captureLegal, Bool.and_eq_true, Bool.not_eq_true'] at hlegal
      exact ht ▸ .capture samples rfl hlegal.1
    next => exact ht ▸ .unchanged
  | start =>
    have ht := execStart_next.1 h
    split at ht
    next hlegal =>
      simp only [State.startLegal, Bool.and_eq_true, Bool.not_eq_true'] at hlegal
      exact ht ▸ .start rfl hlegal.1 hlegal.2
    next => exact ht ▸ .unchanged

/-- A well-formed command never stops: only a CAPTURE can, and only of another size. -/
theorem exec_command_next {i : Instr} {s : State} (hi : isCommand i = true) (hw : i.wellFormed s.cfg = true) :
    ∃ t, exec i s = .next t := by
  cases i with
  | idle | exhaust | unpack | pre | delim | dataNrz | dataMan | illegal => cases hi
  | nop | reset | reserved5 | reserved6 | reserved7 => exact ⟨_, rfl⟩
  | gate rssi => exact ⟨_, execGate_next.2 rfl⟩
  | capture samples => exact ⟨_, execCapture_next.2 ⟨by simpa [Instr.wellFormed] using hw, rfl⟩⟩
  | start => exact ⟨_, execStart_next.2 rfl⟩

end Sys2Proof.Machine

/-! What a step of the block can do, said once. -/

namespace Sys2Proof.Machine

/-! ## The edge search -/

/-- The offset of the best edge is one of the five candidates' (41_sync_clock.md R83). -/
theorem bestEdge_offset_range (half : Nat) (w : Window) (base : Cursor) (q : Bool) :
    -2 ≤ (bestEdge half w base q).1 ∧ (bestEdge half w base q).1 ≤ 2 := by
  have turn (best : Int × Nat) (o : Int) (hbest : -2 ≤ best.1 ∧ best.1 ≤ 2) (ho : -2 ≤ o ∧ o ≤ 2) :
      -2 ≤ (betterEdge half w base q best o).1 ∧ (betterEdge half w base q best o).1 ≤ 2 := by
    obtain ⟨-, h⟩ | ⟨-, h⟩ := betterEdge_cases half w base q best o <;> rw [h]
    · exact ho
    · exact hbest
  exact turn _ 2 (turn _ 1 (turn _ 0 (turn _ (-1) ⟨le_rfl, by simp⟩ (by decide)) (by decide)) (by decide))
    (by decide)

theorem nrzAdjust_range (v first past : Bool) : -1 ≤ nrzAdjust v first past ∧ nrzAdjust v first past ≤ 1 := by
  revert v first past; decide

/-! ## What the validator and the assembler leave unchanged -/

/-- The validator writes `RESULT`, `RUN`, `nbytes` and `FRAME_OUT`, nothing else (44_validator.md R130). -/
theorem validate_frame (s : State) :
    s.validate =
      { s with
        nbytes := s.validate.nbytes, frameOut := s.validate.frameOut
        result := s.validate.result, run := false } := by
  obtain ⟨n, r, -, h⟩ | ⟨frame, -, -, h⟩ := validate_cases s <;> rw [h]

@[simp] theorem validate_cfg (s : State) : s.validate.cfg = s.cfg := (congrArg State.cfg (validate_frame s) :)
@[simp] theorem validate_raw (s : State) : s.validate.raw = s.raw := (congrArg State.raw (validate_frame s) :)
@[simp] theorem validate_acc (s : State) : s.validate.acc = s.acc := (congrArg State.acc (validate_frame s) :)
@[simp] theorem validate_wr (s : State) : s.validate.wr = s.wr := (congrArg State.wr (validate_frame s) :)
@[simp] theorem validate_rd (s : State) : s.validate.rd = s.rd := (congrArg State.rd (validate_frame s) :)
@[simp] theorem validate_bitIdx (s : State) : s.validate.bitIdx = s.bitIdx :=
  (congrArg State.bitIdx (validate_frame s) :)
@[simp] theorem validate_run (s : State) : s.validate.run = false := (congrArg State.run (validate_frame s) :)

/-- The validator writes `FRAME_OUT` only to answer FRAME_VALID (44_validator.md R136). -/
theorem validate_frameOut (s : State) : s.validate.frameOut = s.frameOut ∨ s.validate.result = .frameValid := by
  obtain ⟨n, r, -, h⟩ | ⟨frame, -, -, h⟩ := validate_cases s <;> rw [h]
  · exact .inl rfl
  · exact .inr rfl

/-- The assembler writes `zero_run`, `ACC` and `bit_idx`, nothing else (43_assembler.md R120). -/
theorem assemble_frame (s : State) (a : Assembled) :
    s.assemble a =
      { s with zeroRun := a.zeroRun, acc := (s.assemble a).acc, bitIdx := (s.assemble a).bitIdx } := by
  obtain ⟨-, h⟩ | ⟨b, -, h⟩ := assemble_cases s a <;> rw [h]

@[simp] theorem assemble_cfg (s : State) (a : Assembled) : (s.assemble a).cfg = s.cfg :=
  (congrArg State.cfg (assemble_frame s a) :)
@[simp] theorem assemble_raw (s : State) (a : Assembled) : (s.assemble a).raw = s.raw :=
  (congrArg State.raw (assemble_frame s a) :)
@[simp] theorem assemble_frameOut (s : State) (a : Assembled) : (s.assemble a).frameOut = s.frameOut :=
  (congrArg State.frameOut (assemble_frame s a) :)
@[simp] theorem assemble_wr (s : State) (a : Assembled) : (s.assemble a).wr = s.wr :=
  (congrArg State.wr (assemble_frame s a) :)
@[simp] theorem assemble_rd (s : State) (a : Assembled) : (s.assemble a).rd = s.rd :=
  (congrArg State.rd (assemble_frame s a) :)
@[simp] theorem assemble_zeroRun (s : State) (a : Assembled) : (s.assemble a).zeroRun = a.zeroRun :=
  (congrArg State.zeroRun (assemble_frame s a) :)

/-- The assembler keeps the number of cells. -/
@[simp] theorem assemble_acc_length (s : State) (a : Assembled) : (s.assemble a).acc.length = s.acc.length := by
  obtain ⟨-, h⟩ | ⟨b, -, h⟩ := assemble_cases s a <;> rw [h]
  exact List.length_set

/-! ## DELIM -/

/-- The edge taken and counted, before the finalize (41_sync_clock.md R88). -/
def State.countedEdge (s : State) (o : Int) : State :=
  { s.takeEdge o with cnt := s.cnt + 1 }

/-- The DATA state entered with the measured length `n`, behind the guard skip (41_sync_clock.md R92). -/
def State.enterData (s : State) (n : Nat) : State :=
  { s with
    len := BitVec.ofNat 4 n, rd := s.rd + BitVec.ofNat 5 n
    st := .data, bitIdx := 0, zeroRun := 0 }

/-- The outcomes of DELIM for an edge at the offset `o` from `rd + L` (41_sync_clock.md R84, R86 to R92). -/
inductive DelimStep (s : State) (o : Int) : State → Prop where
  | hunt : s.locked = false → DelimStep s o { s with rd := s.rd + 1 }
  | lost : s.locked = true → DelimStep s o (s.halt .abortBadDelimiter)
  | lock : s.locked = false → DelimStep s o (s.takeEdge o).lockAt
  | edge : s.locked = true → (s.cnt + 1).toNat ≠ s.cfg.delimLen → DelimStep s o (s.countedEdge o)
  | badLength : s.locked = true → (s.cnt + 1).toNat = s.cfg.delimLen →
      DelimStep s o ((s.countedEdge o).halt .abortBadDelimiter)
  | enterData (n : Nat) : s.locked = true → (s.cnt + 1).toNat = s.cfg.delimLen →
      n = measuredLength s.cfg (s.takeEdge o).rd s.delimStart → 1 ≤ n → n ≤ 10 →
      DelimStep s o ((s.countedEdge o).enterData n)

theorem delimStep_step (s : State) (edge : Int × Nat) : DelimStep s edge.1 (s.delimStep edge) := by
  obtain ⟨-, hl, h⟩ | ⟨-, hl, h⟩ | ⟨-, hl, h⟩ | ⟨-, hl, h⟩ := delimStep_cases s edge <;> rw [h]
  · exact .hunt hl
  · exact .lost hl
  · exact .lock hl
  · obtain ⟨hcnt, h⟩ | ⟨hcnt, h⟩ := countEdge_cases (s.takeEdge edge.1) <;> rw [h]
    · exact .edge hl hcnt
    · obtain ⟨-, h⟩ | ⟨⟨hlow, hhigh⟩, h⟩ :=
        delimFinalize_cases ({ s.takeEdge edge.1 with cnt := (s.takeEdge edge.1).cnt + 1 } : State) <;> rw [h]
      · exact .badLength hl hcnt
      · exact .enterData _ hl hcnt rfl hlow hhigh

/-! ## The DATA steps -/

/-- What the two DATA steps have in common: the bit `a` goes to the assembler inside `ACC`, with the cursor at `rd` and
`over` at `ov`; then the validator ends the decode, or the accumulator still has room and the decode goes on. -/
structure DataStep (s : State) (rd : Cursor) (ov : Bool) (a : Assembled) (t : State) : Prop where
  room : s.bitIdx < s.cfg.maxBits ∨ s.bitIdx = s.cfg.maxBits ∧ a.stored = none
  outcome : let v := ({ s with rd := rd, manOver := ov } : State).assemble a
    t = v.validate ∨ t = v ∧ a.eof = false ∧ v.bitIdx < s.cfg.maxBits

theorem dataStep_of_handOff {s : State} {rd : Cursor} {ov : Bool} {a : Assembled}
    (hroom : s.bitIdx < s.cfg.maxBits ∨ s.bitIdx = s.cfg.maxBits ∧ a.stored = none) :
    DataStep s rd ov a ((({ s with rd := rd, manOver := ov } : State).assemble a).handOff a.eof) := by
  refine ⟨hroom, ?_⟩
  obtain ⟨-, h⟩ | ⟨heof, hidx, h⟩ := handOff_cases (({ s with rd := rd, manOver := ov } : State).assemble a) a.eof
  · exact .inl h
  · exact .inr ⟨h, heof, by simpa using hidx⟩

theorem dataStep_of_execDataNrz {s t : State} (h : execDataNrz s = .next t) :
    ∃ (j : Int) (v : Bool), -1 ≤ j ∧ j ≤ 1 ∧
      DataStep s (s.rd + BitVec.ofNat 5 s.bitLen + BitVec.ofInt 5 j) s.manOver (asmNrz s.cfg s.zeroRun v) t := by
  obtain ⟨-, hroom, rfl⟩ := execDataNrz_next.1 h
  obtain ⟨hlow, hhigh⟩ := nrzAdjust_range (vote s.win s.rd s.bitLen) (winRead s.win s.rd)
    (winRead s.win (s.rd + BitVec.ofNat 5 s.bitLen))
  exact ⟨_, _, hlow, hhigh, dataStep_of_handOff hroom⟩

/-- DATA_MAN ends the decode on the end marker with `rd` where it was, else stores its bit. -/
theorem dataStep_of_execDataMan {s t : State} (h : execDataMan s = .next t) :
    (s.bitIdx ≤ s.cfg.maxBits ∧ t = ({ s with manOver := true } : State).validate) ∨
      s.cfg.edgeHalf + 2 ≤ s.bitLen ∧ ∃ (o : Int) (v : Bool), -2 ≤ o ∧ o ≤ 2 ∧
        DataStep s (s.rd + BitVec.ofNat 5 (2 * s.bitLen) + BitVec.ofInt 5 o) false ⟨some v, s.zeroRun, false⟩ t := by
  obtain ⟨-, hroom, hcase⟩ := execDataMan_next.1 h
  cases hov : overFlag s.groupA s.groupB with
  | true =>
    simp only [hov, asmMan_over, true_and, Bool.true_eq_false, false_and, or_false] at hroom hcase
    exact .inl ⟨by omega, hcase⟩
  | false =>
    simp only [hov, asmMan_bit, Bool.false_eq_true, false_and, false_or, true_and] at hroom hcase
    obtain ⟨hahead, rfl⟩ := hcase
    obtain ⟨hlow, hhigh⟩ := bestEdge_offset_range s.cfg.edgeHalf s.win (s.rd + BitVec.ofNat 5 s.bitLen)
      (decide (s.groupB < s.groupA))
    exact .inr ⟨hahead, _, _, hlow, hhigh, dataStep_of_handOff hroom⟩

/-- A DATA step stores at most one bit, at `bit_idx`, and changes no cell below it (20_memory.md R41). -/
theorem DataStep.acc_append {s t : State} {rd : Cursor} {ov : Bool} {a : Assembled} (h : DataStep s rd ov a t) :
    s.bitIdx ≤ t.bitIdx ∧ t.bitIdx ≤ s.bitIdx + 1 ∧
      ∀ i, i < s.bitIdx → t.acc.getD i false = s.acc.getD i false := by
  have assembled : let v := ({ s with rd := rd, manOver := ov } : State).assemble a
      s.bitIdx ≤ v.bitIdx ∧ v.bitIdx ≤ s.bitIdx + 1 ∧
        ∀ i, i < s.bitIdx → v.acc.getD i false = s.acc.getD i false := by
    obtain ⟨-, hv⟩ | ⟨b, -, hv⟩ := assemble_cases ({ s with rd := rd, manOver := ov } : State) a <;> simp only [hv]
    · exact ⟨le_rfl, Nat.le_succ _, fun _ _ => trivial⟩
    · refine ⟨Nat.le_succ _, le_rfl, fun i hi => ?_⟩
      rw [List.getD_eq_getElem?_getD, List.getElem?_set_ne (by omega), List.getD_eq_getElem?_getD]
  obtain rfl | ⟨rfl, -⟩ := h.outcome
  · simpa using assembled
  · exact assembled

theorem DataStep.wr_eq {s t : State} {rd : Cursor} {ov : Bool} {a : Assembled} (h : DataStep s rd ov a t) :
    t.wr = s.wr := by
  obtain rfl | ⟨rfl, -⟩ := h.outcome <;> simp

theorem DataStep.rd_eq {s t : State} {rd : Cursor} {ov : Bool} {a : Assembled} (h : DataStep s rd ov a t) :
    t.rd = rd := by
  obtain rfl | ⟨rfl, -⟩ := h.outcome <;> simp

/-! ## A step of the block -/

/-- What a micro-operation of the block does, under the conditions that the rule of 20_memory.md R39 schedules it in. -/
inductive BlockStep (s : State) : State → Prop where
  | idle : s.run = false → BlockStep s s
  | exhaust : s.run = true → s.cfg.rawCap ≤ s.rawIdx → s.avail < s.need → BlockStep s (s.halt .abortExhausted)
  | unpack : s.run = true → s.rawIdx < s.cfg.rawCap → s.avail < s.need →
      BlockStep s
        { s with
          win := winWriteBits s.win s.wr (s.raw.read s.rawIdx) unpackN
          wr := s.wr + 8, rawIdx := s.rawIdx + 1 }
  | preHit : s.run = true → s.need ≤ s.avail → s.st = .preamble → BlockStep s s.preHit
  | preMiss : s.run = true → s.need ≤ s.avail → s.st = .preamble → BlockStep s s.preMiss
  | delim {t : State} (o : Int) : s.run = true → s.need ≤ s.avail → s.st = .delimiter →
      s.cfg.edgeHalf + 2 ≤ s.bitLen → -2 ≤ o → o ≤ 2 → DelimStep s o t → BlockStep s t
  | nrz {t : State} (j : Int) (v : Bool) : s.run = true → s.need ≤ s.avail → s.st = .data → s.cfg.strategy = .nrz →
      -1 ≤ j → j ≤ 1 →
      DataStep s (s.rd + BitVec.ofNat 5 s.bitLen + BitVec.ofInt 5 j) s.manOver (asmNrz s.cfg s.zeroRun v) t →
      BlockStep s t
  | man {t : State} (o : Int) (v : Bool) : s.run = true → s.need ≤ s.avail → s.st = .data → s.cfg.strategy = .man →
      s.cfg.edgeHalf + 2 ≤ s.bitLen → -2 ≤ o → o ≤ 2 →
      DataStep s (s.rd + BitVec.ofNat 5 (2 * s.bitLen) + BitVec.ofInt 5 o) false ⟨some v, s.zeroRun, false⟩ t →
      BlockStep s t
  | manOver : s.run = true → s.need ≤ s.avail → s.st = .data → s.cfg.strategy = .man → s.bitIdx ≤ s.cfg.maxBits →
      BlockStep s ({ s with manOver := true } : State).validate
  | illegal : s.run = true → s.st = .reserved → BlockStep s (s.halt .faultIllegal)

/-- The consumer step that the rule schedules with its lookahead. -/
theorem blockStep_of_consumer {s t : State} (hrun : s.run = true) (henough : s.need ≤ s.avail)
    (h : exec (consumerOf s.cfg.strategy s.st) s = .next t) : BlockStep s t := by
  cases hst : s.st with
  | preamble =>
    rw [hst] at h
    obtain ⟨-, rfl⟩ := execPre_next.1 h
    split
    · exact .preHit hrun henough hst
    · exact .preMiss hrun henough hst
  | delimiter =>
    rw [hst] at h
    obtain ⟨-, hahead, rfl⟩ := execDelim_next.1 h
    obtain ⟨hlow, hhigh⟩ := bestEdge_offset_range s.cfg.edgeHalf s.win (s.rd + BitVec.ofNat 5 s.bitLen) s.pol
    exact .delim _ hrun henough hst hahead hlow hhigh (delimStep_step s _)
  | data =>
    cases hstrategy : s.cfg.strategy with
    | nrz =>
      rw [hst, hstrategy] at h
      obtain ⟨j, v, hlow, hhigh, hstep⟩ := dataStep_of_execDataNrz h
      exact .nrz j v hrun henough hst hstrategy hlow hhigh hstep
    | man =>
      rw [hst, hstrategy] at h
      obtain ⟨hidx, rfl⟩ | ⟨hahead, o, v, hlow, hhigh, hstep⟩ := dataStep_of_execDataMan h
      · exact .manOver hrun henough hst hstrategy hidx
      · exact .man o v hrun henough hst hstrategy hahead hlow hhigh hstep
  | reserved =>
    rw [hst] at h
    obtain rfl := next_inj.1 h
    exact .illegal hrun hst

/-- The scheduled operation, where it goes on, makes a step of the block. -/
theorem blockStep_of_scheduled {s t : State} (h : exec s.scheduled s = .next t) : BlockStep s t := by
  cases hrun : s.run with
  | false =>
    rw [scheduled_of_idle hrun] at h
    obtain rfl := next_inj.1 h
    exact .idle hrun
  | true =>
    by_cases henough : s.need ≤ s.avail
    · rw [scheduled_of_enough hrun henough] at h
      exact blockStep_of_consumer hrun henough h
    · have hshort : s.avail < s.need := not_le.1 henough
      rw [scheduled_of_short hrun hshort] at h
      split at h
      · obtain ⟨hraw, rfl⟩ := execUnpack_next.1 h
        exact .unpack hrun hraw hshort
      next hraw =>
        obtain rfl := next_inj.1 h
        exact .exhaust hrun (not_lt.1 hraw) hshort

/-- A step that goes on is a step of the block, or a command of the host. -/
theorem step_cases {s t : State} (h : step s = .next t) :
    (s.hostSilent ∧ BlockStep s.nextSlot t) ∨ ∃ i, s.hostIssues i ∧ CommandStep s.nextSlot i t := by
  obtain ⟨hsilent, hexec⟩ | ⟨i, hi, hexec⟩ := step_next_cases h
  · exact .inl ⟨hsilent, blockStep_of_scheduled hexec⟩
  · exact .inr ⟨i, hi, commandStep_of_exec (isCommand_of_hostIssues hi) hexec⟩

end Sys2Proof.Machine

/-! The invariant is kept by every step. -/

namespace Sys2Proof.Machine

/-! ## The invariant of a decode in flight

A running state meets the invariant exactly where the same state, stopped without a cause, meets it and the clauses
about `RUN = 1` hold. The stopped form is what a halt keeps, so each outcome is checked against it. -/

/-- The clauses of the invariant that speak of `RUN = 1`. -/
structure InFlight (s : State) : Prop where
  cntOpen : s.st ≠ .data → s.cnt.toNat < s.cfg.delimLen
  bitIdxOpen : s.bitIdx < s.cfg.maxBits
  zeroRunOpen : s.zeroRun.toNat < termThresh
  overClear : s.manOver = false
  noResult : s.result = .none
  noBytes : s.nbytes = 0
  loaded : s.rawLoaded = true

theorem Inv.inFlight {s : State} (h : Inv s) (hrun : s.run = true) : InFlight s where
  cntOpen := h.cntOpen hrun
  bitIdxOpen := h.bitIdxOpen hrun
  zeroRunOpen := h.zeroRunOpen hrun
  overClear := Bool.eq_false_iff.2 fun hover => by simp [(h.overMan hover).2] at hrun
  noResult := (h.resultOpen hrun).1
  noBytes := (h.resultOpen hrun).2
  loaded := h.runLoaded hrun

/-- A decode in flight may stop without a cause. -/
theorem Inv.stopped {s : State} (h : Inv s) (hrun : s.run = true) : Inv (s.halt .none) :=
  have ⟨_, hbytes⟩ := h.resultOpen hrun
  { h with
    cntOpen := nofun
    bitIdxOpen := nofun
    zeroRunOpen := nofun
    overMan := fun hover => ⟨(h.overMan hover).1, rfl⟩
    resultOpen := nofun
    nbytesClosed := fun _ => hbytes
    nbytesFrame := nofun
    nbytesLength := nofun
    nbytesEcc := nofun
    exhaustedRaw := nofun
    badDelimiter := nofun
    frameChecked := nofun
    resultLegal := nofun
    runLoaded := nofun }

/-- A state that stands as stopped stands as running, with the clauses about `RUN = 1`. -/
theorem InFlight.inv {s : State} (hopen : InFlight s) (h : Inv (s.halt .none)) : Inv s :=
  have without {r : Result} (hs : s.result = r) (hr : r ≠ .none) : False := hr (hs.symm.trans hopen.noResult)
  { h with
    cntOpen := fun _ => hopen.cntOpen
    bitIdxOpen := fun _ => hopen.bitIdxOpen
    zeroRunOpen := fun _ => hopen.zeroRunOpen
    overMan := fun hover => by simp [hopen.overClear] at hover
    resultOpen := fun _ => ⟨hopen.noResult, hopen.noBytes⟩
    nbytesClosed := fun _ => hopen.noBytes
    nbytesFrame := fun hr => (hr.elim (without · nofun) (without · nofun)).elim
    nbytesLength := fun hr => (without hr nofun).elim
    nbytesEcc := fun hr => (without hr nofun).elim
    exhaustedRaw := fun hr => (without hr nofun).elim
    badDelimiter := fun hr => (without hr nofun).elim
    frameChecked := fun hr => (without hr nofun).elim
    resultLegal := fun hr => without hr nofun
    runLoaded := fun _ => hopen.loaded }

/-! ## The host's commands -/

theorem Inv.nextSlot {s : State} (h : Inv s) : Inv s.nextSlot := { h with }

/-- A reading keeps `gate_cnt` in range: it saturates (45_host_ops.md R153). -/
theorem gateCount_le {c : Config} {gateCnt : Nat} (h : gateCnt ≤ c.rssiHold) (rssi : Nat) :
    gateCount c gateCnt rssi ≤ c.rssiHold := by
  unfold gateCount
  split
  · split
    · assumption
    · exact h
  · exact Nat.zero_le _

/-- The accumulator of a legal block has a cell (00_scope.md K8). -/
theorem maxBits_pos {c : Config} (hc : legal c) : 0 < c.maxBits := by
  obtain ⟨-, -, -, -, -, -, -, -, ⟨hframe, hbits⟩, -⟩ := hc
  omega

theorem delimLen_pos {c : Config} (hc : legal c) : 0 < c.delimLen := by
  obtain ⟨⟨-, ⟨hdelim, -⟩, -⟩, -⟩ := hc
  exact hdelim

/-- START leaves the reset registers, running, with `RAW`, `FRAME_OUT` and the gate as they were. -/
theorem Inv.start {s : State} (h : Inv s) (hloaded : s.rawLoaded = true) :
    Inv { s.initDecode with run := true } :=
  { inv_resetOf_with h.legalParameters s.inbox h.rawForm h.rawIndices h.frameForm h.frameIndices with
    cntOpen := fun _ _ => delimLen_pos h.legalParameters
    bitIdxOpen := fun _ => maxBits_pos h.legalParameters
    zeroRunOpen := fun _ => Nat.zero_lt_succ _
    overMan := nofun
    resultOpen := fun _ => ⟨rfl, rfl⟩
    gateRange := h.gateRange
    runLoaded := fun _ => hloaded }

theorem Inv.commandStep {s t : State} {i : Instr} (h : Inv s) (hstep : CommandStep s i t) : Inv t := by
  cases hstep with
  | unchanged => exact h
  | reset => exact inv_resetOf_with h.legalParameters s.inbox h.rawForm h.rawIndices h.frameForm h.frameIndices
  | gate rssi => exact { h with gateRange := gateCount_le h.gateRange rssi }
  | capture samples =>
    exact { h with
      rawForm := Memory.writeBytes_wf h.rawForm 0 _
      rawIndices := Memory.writeBytes_indices _ h.rawIndices (by simp)
      gateRange := Nat.zero_le _
      runLoaded := fun _ => rfl }
  | start _ _ hloaded => exact h.start hloaded

/-! ## The halts -/

theorem Inv.exhausted {s : State} (h : Inv (s.halt .none)) (hraw : s.rawIdx = s.cfg.rawCap) :
    Inv (s.halt .abortExhausted) :=
  { h with
    resultOpen := nofun
    nbytesClosed := fun _ => h.nbytesClosed (.inl rfl)
    nbytesFrame := nofun
    nbytesLength := nofun
    nbytesEcc := nofun
    exhaustedRaw := fun _ => hraw
    badDelimiter := nofun
    frameChecked := nofun
    resultLegal := nofun }

theorem Inv.badDelimiterHalt {s : State} (h : Inv (s.halt .none)) (hst : s.st = .delimiter)
    (hlocked : s.locked = true) : Inv (s.halt .abortBadDelimiter) :=
  { h with
    resultOpen := nofun
    nbytesClosed := fun _ => h.nbytesClosed (.inl rfl)
    nbytesFrame := nofun
    nbytesLength := nofun
    nbytesEcc := nofun
    exhaustedRaw := nofun
    badDelimiter := fun _ => ⟨hst, hlocked⟩
    frameChecked := nofun
    resultLegal := nofun }

/-- A reject keeps the invariant where `nbytes` takes what the reject records (60_exceptions.md R182, R185). -/
theorem Inv.rejected {s : State} (h : Inv (s.halt .none)) {r : Result} {n : Nat}
    (hr : r = .rejectEcc ∨ r = .rejectLength ∨ r = .rejectChecksum)
    (hrange : s.cfg.eccEnable = false → n ≤ s.cfg.maxBits / 8)
    (hecc : r = .rejectEcc → s.cfg.eccEnable = true ∧ n = s.bitIdx / 8)
    (hlength : r = .rejectLength → n ≠ s.cfg.frameSize)
    (hchecksum : r = .rejectChecksum → n = s.cfg.frameSize) :
    Inv { s with nbytes := n, result := r, run := false } := by
  have other {r' : Result} (hr' : r = r') (h1 : r' ≠ .rejectEcc) (h2 : r' ≠ .rejectLength)
      (h3 : r' ≠ .rejectChecksum) : False := by
    subst hr'
    exact hr.elim h1 (Or.rec h2 h3)
  exact { h with
    resultOpen := nofun
    nbytesRange := hrange
    nbytesClosed := by
      rintro (hr' | hr' | hr') <;> exact (other hr' nofun nofun nofun).elim
    nbytesFrame := fun hr' => hr'.elim (fun hr' => (other hr' nofun nofun nofun).elim) hchecksum
    nbytesLength := hlength
    nbytesEcc := hecc
    exhaustedRaw := fun hr' => (other hr' nofun nofun nofun).elim
    badDelimiter := fun hr' => (other hr' nofun nofun nofun).elim
    frameChecked := fun hr' => (other hr' nofun nofun nofun).elim
    resultLegal := fun hr' => other hr' nofun nofun nofun }

/-- A checked frame of `FRAME_SIZE` bytes in `FRAME_OUT` keeps the invariant (44_validator.md R136). -/
theorem Inv.accepted {s : State} (h : Inv (s.halt .none)) {frame : List Byte}
    (hlength : frame.length = s.cfg.frameSize) (hsum : frameChecksum s.cfg frame = frameField s.cfg frame) :
    Inv
      { s with
        nbytes := frame.length, frameOut := s.frameOut.writeBytes 0 frame
        result := .frameValid, run := false } := by
  have hread : (s.frameOut.writeBytes 0 frame).readBytes s.cfg.frameSize = frame :=
    hlength ▸ Memory.readBytes_writeBytes h.frameForm frame
  obtain ⟨-, -, -, -, -, -, -, -, ⟨-, hbits⟩, -⟩ := h.legalParameters
  exact { h with
    frameForm := Memory.writeBytes_wf h.frameForm 0 frame
    frameIndices := Memory.writeBytes_indices frame h.frameIndices (by simp [hlength])
    resultOpen := nofun
    nbytesRange := fun _ => by simp only [halt_cfg] at hbits; simp only; omega
    nbytesClosed := nofun
    nbytesFrame := fun _ => hlength
    nbytesLength := nofun
    nbytesEcc := nofun
    exhaustedRaw := nofun
    badDelimiter := nofun
    frameChecked := fun _ => by simp only [hread, hsum]
    resultLegal := nofun }

theorem Inv.checkFrame {s : State} (h : Inv (s.halt .none)) {frame : List Byte}
    (hrange : s.cfg.eccEnable = false → frame.length ≤ s.cfg.maxBits / 8) : Inv (s.checkFrame frame) := by
  obtain ⟨hlength, heq⟩ | ⟨hlength, -, heq⟩ | ⟨hlength, hsum, heq⟩ := checkFrame_cases s frame <;> rw [heq]
  · exact h.rejected (.inr (.inl rfl)) hrange nofun (fun _ => hlength) nofun
  · exact h.rejected (.inr (.inr rfl)) hrange nofun nofun (fun _ => hlength)
  · exact h.accepted hlength hsum

/-- The validator keeps the invariant: it takes `bit_idx div 8` bytes, and `bit_idx` is in range. -/
theorem Inv.validate {s : State} (h : Inv (s.halt .none)) : Inv s.validate := by
  have hbytes : s.bitIdx / 8 ≤ s.cfg.maxBits / 8 := Nat.div_le_div_right h.bitIdxRange
  unfold State.validate
  split
  next hecc =>
    have hoff : s.cfg.eccEnable ≠ false := by simp [hecc]
    split
    · exact h.rejected (.inl rfl) (fun he => (hoff he).elim) (fun _ => ⟨hecc, rfl⟩) nofun nofun
    · exact h.checkFrame fun he => (hoff he).elim
  · exact h.checkFrame fun _ => by simpa [accBytes] using hbytes

/-! ## The steps of the block -/

theorem Inv.unpack {s : State} (h : Inv s) (hrun : s.run = true) (hraw : s.rawIdx < s.cfg.rawCap) (win : Window) :
    Inv { s with win := win, wr := s.wr + 8, rawIdx := s.rawIdx + 1 } :=
  { h with
    rawIdxRange := hraw
    wrFollowsRaw := by
      simp only [h.wrFollowsRaw, Nat.mul_add, BitVec.ofNat_add]
      rfl
    exhaustedRaw := fun hr => by simp [(h.resultOpen hrun).1] at hr }

theorem Inv.preHit {s : State} (h : Inv s) (hst : s.st = .preamble) : Inv s.preHit :=
  have hdata : s.st ≠ .data := by simp [hst]
  { h with
    notReserved := nofun
    lengthNominal := fun _ => h.lengthNominal hdata
    lengthData := nofun
    cntRange := Nat.zero_le _
    cntOpen := fun _ _ => delimLen_pos h.legalParameters
    cntLocked := fun _ => rfl
    bitIdxData := fun _ => h.bitIdxData hdata
    zeroRunData := fun _ => h.zeroRunData hdata
    badDelimiter := fun hr => absurd (h.badDelimiter hr).1 (by simp [hst]) }

/-- DELIM moves `rd`, counts edges up to `DELIM_LEN`, and enters DATA with a length that keeps the scorer ahead of the
read cursor (41_sync_clock.md R91). -/
theorem Inv.delimStep {s t : State} {o : Int} (h : Inv s) (hrun : s.run = true) (hst : s.st = .delimiter)
    (hstep : DelimStep s o t) : Inv t := by
  have hdata : s.st ≠ .data := by simp [hst]
  have hopen : s.cnt.toNat < s.cfg.delimLen := h.cntOpen hrun hdata
  have hnext : (s.cnt + 1).toNat ≤ s.cfg.delimLen := by
    rw [BitVec.toNat_add]
    exact (Nat.mod_le _ _).trans hopen
  cases hstep with
  | hunt => exact { h with }
  | lost hlocked => exact (h.stopped hrun).badDelimiterHalt hst hlocked
  | lock => exact { h with cntLocked := nofun, badDelimiter := fun hr => ⟨hst, rfl⟩ }
  | edge hlocked hcnt =>
    exact { h with
      cntRange := hnext
      cntOpen := fun _ _ => hnext.lt_of_ne hcnt
      cntLocked := fun hunlocked => by simp [State.countedEdge, hlocked] at hunlocked }
  | badLength hlocked =>
    have counted : Inv ((s.countedEdge o).halt .none) :=
      { h.stopped hrun with
        cntRange := hnext
        cntOpen := nofun
        cntLocked := fun hunlocked => by simp [State.countedEdge, hlocked] at hunlocked }
    exact counted.badDelimiterHalt hst hlocked
  | enterData n hlocked _ hn hlow hhigh =>
    have hlen : ((s.countedEdge o).enterData n).bitLen = n := Nat.mod_eq_of_lt (by omega)
    exact { h with
      notReserved := nofun
      lengthRange := by rw [hlen]; exact ⟨hlow, hhigh⟩
      lengthNominal := fun hnot => absurd rfl hnot
      lengthData := fun _ => by
        rw [hlen, hn]
        exact measuredLengthKeepsScorerAhead _ _ _ h.legalParameters
      cntRange := hnext
      cntOpen := fun _ hnot => absurd rfl hnot
      cntLocked := fun hunlocked => by simp [State.countedEdge, State.enterData, hlocked] at hunlocked
      bitIdxRange := Nat.zero_le _
      bitIdxOpen := fun _ => maxBits_pos h.legalParameters
      bitIdxData := fun _ => rfl
      zeroRunRange := Nat.zero_le _
      zeroRunOpen := fun _ => Nat.zero_lt_succ _
      zeroRunData := fun _ => rfl
      zeroRunNrz := fun _ => rfl
      nbytesEcc := fun hr => by simp [(h.inFlight hrun).noResult, State.enterData, State.countedEdge] at hr
      badDelimiter := fun hr => by simp [(h.inFlight hrun).noResult, State.enterData, State.countedEdge] at hr }

/-- The registers that a DATA step writes before it hands off, in their ranges, keep the stopped invariant. -/
theorem Inv.stoppedBits {s : State} (h : Inv (s.halt .none)) (hst : s.st = .data) (rd : Cursor) {acc : List Bool}
    {bitIdx : Nat} {zeroRun : BitVec 3} (hacc : acc.length = s.cfg.maxBits) (hidx : bitIdx ≤ s.cfg.maxBits)
    (hzero : zeroRun.toNat ≤ termThresh) (hman : s.cfg.strategy = .man → zeroRun = 0) :
    Inv (({ s with
      rd := rd, manOver := false, zeroRun := zeroRun, acc := acc, bitIdx := bitIdx } : State).halt .none) :=
  { h with
    accCells := hacc
    bitIdxRange := hidx
    bitIdxOpen := nofun
    bitIdxData := fun hnot => absurd hst hnot
    zeroRunRange := hzero
    zeroRunOpen := nofun
    zeroRunData := fun hnot => absurd hst hnot
    zeroRunNrz := hman
    overMan := nofun
    nbytesEcc := nofun }

/-- A DATA step whose assembler keeps `zero_run` in range keeps the invariant. -/
theorem Inv.dataStep {s t : State} {rd : Cursor} {a : Assembled} (h : Inv s) (hrun : s.run = true) (hst : s.st = .data)
    (hzero : a.zeroRun.toNat ≤ termThresh) (hopen : a.eof = false → a.zeroRun.toNat < termThresh)
    (hman : s.cfg.strategy = .man → a.zeroRun = 0) (hstep : DataStep s rd false a t) : Inv t := by
  obtain ⟨hroom, houtcome⟩ := hstep
  have assembled : Inv ((({ s with rd := rd, manOver := false } : State).assemble a).halt .none) := by
    obtain ⟨-, hv⟩ | ⟨b, hb, hv⟩ := assemble_cases ({ s with rd := rd, manOver := false } : State) a <;> rw [hv]
    · exact (h.stopped hrun).stoppedBits hst rd h.accCells h.bitIdxRange hzero hman
    · have hidx : s.bitIdx < s.cfg.maxBits := hroom.resolve_right fun ⟨_, hnone⟩ => by simp [hb] at hnone
      exact (h.stopped hrun).stoppedBits hst rd (List.length_set.trans h.accCells) hidx hzero hman
  obtain rfl | ⟨rfl, heof, hidx⟩ := houtcome
  · exact assembled.validate
  · have inFlight := h.inFlight hrun
    exact InFlight.inv
      { cntOpen := fun hnot => absurd (by rw [assemble_frame]; exact hst) hnot
        bitIdxOpen := by simpa using hidx
        zeroRunOpen := by simpa using hopen heof
        overClear := by rw [assemble_frame]
        noResult := by rw [assemble_frame]; exact inFlight.noResult
        noBytes := by rw [assemble_frame]; exact inFlight.noBytes
        loaded := by rw [assemble_frame]; exact inFlight.loaded } assembled

/-- The assembler's `zero_run` reaches `TERM_THRESH` only with the end of the frame (43_assembler.md R121). -/
theorem asmNrz_zeroRun {c : Config} {zeroRun : BitVec 3} (h : zeroRun.toNat < termThresh) (v : Bool) :
    (asmNrz c zeroRun v).zeroRun.toNat ≤ termThresh ∧
      ((asmNrz c zeroRun v).eof = false → (asmNrz c zeroRun v).zeroRun.toNat < termThresh) := by
  obtain ⟨-, -, heq⟩ | ⟨-, -, heq⟩ | ⟨-, -, heq⟩ | ⟨-, hlow, heq⟩ := asmNrz_cases c zeroRun v <;> rw [heq]
  · exact ⟨by simp, fun _ => by simp⟩
  · exact ⟨by simp, fun _ => by simp⟩
  · refine ⟨?_, nofun⟩
    rw [BitVec.toNat_add]
    exact (Nat.mod_le _ _).trans h
  · exact ⟨hlow.le, fun _ => hlow⟩

theorem Inv.blockStep {s t : State} (h : Inv s) (hstep : BlockStep s t) : Inv t := by
  cases hstep with
  | idle => exact h
  | exhaust hrun hraw => exact (h.stopped hrun).exhausted (h.rawIdxRange.antisymm hraw)
  | unpack hrun hraw => exact h.unpack hrun hraw _
  | preHit _ _ hst => exact h.preHit hst
  | preMiss => exact { h with }
  | delim o hrun _ hst _ _ _ hdelim => exact h.delimStep hrun hst hdelim
  | nrz j v hrun _ hst hstrategy _ _ hdata =>
    obtain ⟨hzero, hopen⟩ := asmNrz_zeroRun (c := s.cfg) (h.zeroRunOpen hrun) v
    rw [(h.inFlight hrun).overClear] at hdata
    exact h.dataStep hrun hst hzero hopen (fun hman => by simp [hstrategy] at hman) hdata
  | man o v hrun _ hst _ _ _ _ hdata =>
    exact h.dataStep hrun hst h.zeroRunRange (fun _ => h.zeroRunOpen hrun) h.zeroRunNrz hdata
  | manOver hrun _ _ hman =>
    exact Inv.validate { h.stopped hrun with overMan := fun _ => ⟨hman, rfl⟩ }
  | illegal _ hst => exact absurd hst h.notReserved

/-- Settles O42: the invariant does not speak of the schedule's slot, and a step is one of the block or a command. -/
theorem everyStepKeepsTheInvariant : Obligations.EveryStepKeepsTheInvariant := by
  intro s t h hstep
  obtain ⟨-, hblock⟩ | ⟨i, -, hcommand⟩ := step_cases hstep
  · exact h.nextSlot.blockStep hblock
  · exact h.nextSlot.commandStep hcommand

end Sys2Proof.Machine

/-! The statements about runs of the block: it never stops, and it never overruns the ring. -/

namespace Sys2Proof.Machine

/-! ## No stop -/

/-- `EDGE_HALF + 2` is at most the bit length wherever the scorer runs (00_scope.md K1, 41_sync_clock.md R91). -/
theorem Inv.scorerAhead {s : State} (h : Inv s) : s.cfg.edgeHalf + 2 ≤ s.bitLen := by
  by_cases hst : s.st = .data
  · exact h.lengthData hst
  · obtain ⟨-, ⟨hK1, -⟩, -⟩ := h.legalParameters
    exact hK1.trans_eq (h.lengthNominal hst).symm

/-- A consumer step with its lookahead goes on. -/
theorem Inv.exec_consumer {s : State} (h : Inv s) (hrun : s.run = true) (henough : s.need ≤ s.avail) :
    ∃ t, exec (consumerOf s.cfg.strategy s.st) s = .next t := by
  have hmay : s.mayConsume s.cfg.strategy s.st :=
    (mayConsume_iff _ _ _).2 ⟨h.lengthRange.1, h.lengthRange.2, henough⟩
  have hroom := h.bitIdxOpen hrun
  cases hst : s.st with
  | preamble => exact ⟨_, execPre_next.2 ⟨hst ▸ hmay, rfl⟩⟩
  | delimiter => exact ⟨_, execDelim_next.2 ⟨hst ▸ hmay, h.scorerAhead, rfl⟩⟩
  | data =>
    rw [hst] at hmay
    cases hstrategy : s.cfg.strategy with
    | nrz => exact ⟨_, execDataNrz_next.2 ⟨hstrategy ▸ hmay, .inl hroom, rfl⟩⟩
    | man =>
      rw [hstrategy] at hmay
      cases hov : overFlag s.groupA s.groupB with
      | true => exact ⟨_, execDataMan_next.2 ⟨hmay, .inl hroom, .inl ⟨by rw [hov]; rfl, rfl⟩⟩⟩
      | false => exact ⟨_, execDataMan_next.2 ⟨hmay, .inl hroom, .inr ⟨by rw [hov]; rfl, h.scorerAhead, rfl⟩⟩⟩
  | reserved => exact absurd hst h.notReserved

/-- The scheduled operation goes on. -/
theorem Inv.exec_scheduled {s : State} (h : Inv s) : ∃ t, exec s.scheduled s = .next t := by
  cases hrun : s.run with
  | false => exact ⟨s, by rw [scheduled_of_idle hrun]; rfl⟩
  | true =>
    by_cases henough : s.need ≤ s.avail
    · rw [scheduled_of_enough hrun henough]
      exact h.exec_consumer hrun henough
    · rw [scheduled_of_short hrun (not_le.1 henough)]
      split
      next hraw => exact ⟨_, execUnpack_next.2 ⟨hraw, rfl⟩⟩
      next => exact ⟨_, rfl⟩

/-- Settles O43: what the rule schedules goes on under the invariant, and so does a well-formed command. -/
theorem legalRunNeverStops : Obligations.LegalRunNeverStops := by
  intro s h hcommands
  cases hcmd : s.inbox.head?.join with
  | none =>
    rw [step_of_silent h.legalParameters hcmd]
    exact h.nextSlot.exec_scheduled
  | some w =>
    have hissues : s.hostIssues (decodeHost w) := ⟨w, hcmd, rfl⟩
    rw [step_of_hostIssues h.legalParameters hissues (hcommands _ hissues)]
    exact exec_command_next (isCommand_decodeHost w) (hcommands _ hissues)

/-! ## The ring -/

/-- A cursor `n` ahead and then off by `o`, no further back than where it was. -/
theorem cursor_add_offset (p : Cursor) {n : Nat} {o : Int} (h : 0 ≤ n + o) :
    p + BitVec.ofNat 5 n + BitVec.ofInt 5 o = p + BitVec.ofNat 5 (n + o).toNat := by
  rw [add_assoc, ← BitVec.ofInt_natCast, ← BitVec.ofInt_add, ← BitVec.ofInt_natCast 5 (n + o).toNat,
    Int.toNat_of_nonneg h]

/-- No demand exceeds 24 (00_scope.md K2, K3). -/
theorem Inv.need_le {s : State} (h : Inv s) : s.need ≤ 24 := by
  obtain ⟨⟨-, -, ⟨-, hhalf⟩, -⟩, -, hK2, -⟩ := h.legalParameters
  have hlen := h.lengthRange.2
  simp only [lMax, winSize, unpackN] at hK2 hlen
  cases hst : s.st with
  | preamble => rw [need_of_preamble hst]; omega
  | delimiter =>
    have hnominal := h.lengthNominal (by simp [hst])
    rw [need_of_delimiter hst]
    omega
  | data =>
    cases hstrategy : s.cfg.strategy with
    | nrz => rw [need_of_nrz hst hstrategy]; omega
    | man => rw [need_of_man hst hstrategy]; omega
  | reserved => exact absurd hst h.notReserved

/-- A step has taken `n` samples of the lookahead and given none. -/
structure Takes (s t : State) (n : Nat) : Prop where
  wr_eq : t.wr = s.wr
  rd_eq : t.rd = s.rd + BitVec.ofNat 5 n

theorem Takes.avail {s t : State} {n : Nat} (h : Takes s t n) (hn : n ≤ s.avail) : t.avail = s.avail - n := by
  have hlt : s.avail < 32 := (s.wr - s.rd).isLt
  have hrest : s.wr - (s.rd + BitVec.ofNat 5 n) = s.wr - s.rd - BitVec.ofNat 5 n := sub_add_eq_sub_sub _ _ _
  have htoNat : (BitVec.ofNat 5 n).toNat = n := Nat.mod_eq_of_lt (by omega)
  rw [State.avail, h.wr_eq, h.rd_eq, hrest, BitVec.toNat_sub_of_le (by rw [BitVec.le_def, htoNat]; exact hn), htoNat]
  rfl

/-- DELIM takes the samples up to the edge, and the guard skip where it enters DATA. -/
theorem DelimStep.takes {s t : State} {o : Int} (h : DelimStep s o t) (hlen : 2 ≤ s.bitLen) (hlow : -2 ≤ o)
    (hhigh : o ≤ 2) : ∃ n, n ≤ s.bitLen + 12 ∧ Takes s t n := by
  have hedge : (s.takeEdge o).rd = s.rd + BitVec.ofNat 5 (s.bitLen + o).toNat := cursor_add_offset s.rd (by omega)
  cases h with
  | hunt => exact ⟨1, by omega, rfl, rfl⟩
  | lost => exact ⟨0, by omega, rfl, (add_zero _).symm⟩
  | lock | edge | badLength => exact ⟨(s.bitLen + o).toNat, by omega, rfl, hedge⟩
  | enterData n _ _ _ _ hn =>
    refine ⟨(s.bitLen + o).toNat + n, by omega, rfl, ?_⟩
    rw [BitVec.ofNat_add, ← add_assoc, ← hedge]
    rfl

/-- A consumer step takes at most its demand. -/
theorem BlockStep.takes {s t : State} (h : BlockStep s t) (hinv : Inv s) (hrun : s.run = true)
    (henough : s.need ≤ s.avail) : ∃ n, n ≤ s.need ∧ Takes s t n := by
  have hlen := hinv.lengthRange.1
  have hahead := hinv.scorerAhead
  cases h with
  | idle hidle => simp [hrun] at hidle
  | exhaust _ _ hshort | unpack _ _ hshort => exact absurd henough (not_le.2 hshort)
  | preHit => exact ⟨0, Nat.zero_le _, rfl, (add_zero _).symm⟩
  | preMiss _ _ hst => exact ⟨s.bitLen, (need_of_preamble hst).ge, rfl, rfl⟩
  | delim o _ _ hst _ hlow hhigh hdelim =>
    obtain ⟨n, hn, htakes⟩ := hdelim.takes (by omega) hlow hhigh
    exact ⟨n, by rw [need_of_delimiter hst]; omega, htakes⟩
  | nrz j v _ _ hst hstrategy hlow hhigh hdata =>
    exact ⟨(s.bitLen + j).toNat, by rw [need_of_nrz hst hstrategy]; omega, hdata.wr_eq,
      hdata.rd_eq.trans (cursor_add_offset s.rd (by omega))⟩
  | man o v _ _ hst hstrategy _ hlow hhigh hdata =>
    exact ⟨((2 * s.bitLen : Nat) + o).toNat, by rw [need_of_man hst hstrategy]; omega, hdata.wr_eq,
      hdata.rd_eq.trans (cursor_add_offset s.rd (by omega))⟩
  | manOver => exact ⟨0, Nat.zero_le _, by simp, by simp⟩
  | illegal _ hst => exact absurd hst hinv.notReserved

/-- UNPACK, the step of a block that lacks lookahead while raw bytes remain, adds eight samples. -/
theorem BlockStep.avail_unpack {s t : State} (h : BlockStep s t) (hinv : Inv s) (hrun : s.run = true)
    (hshort : s.avail < s.need) (hraw : s.rawIdx < s.cfg.rawCap) : t.avail = s.avail + 8 := by
  have hneed := hinv.need_le
  cases h with
  | idle hidle => simp [hrun] at hidle
  | exhaust _ hend => exact absurd hraw (not_lt.2 hend)
  | unpack =>
    calc (s.wr + 8 - s.rd).toNat = (s.wr - s.rd + 8).toNat := congrArg _ (sub_add_eq_add_sub _ _ _).symm
      _ = (s.avail + 8) % 32 := BitVec.toNat_add _ _
      _ = s.avail + 8 := Nat.mod_eq_of_lt (by omega)
  | preHit _ henough | preMiss _ henough | delim _ _ henough | nrz _ _ _ henough | man _ _ _ henough
  | manOver _ henough => exact absurd henough (not_le.2 hshort)
  | illegal _ hst => exact absurd hst hinv.notReserved

/-- Settles O44: a demand is at most 24, so an UNPACK finds at most 23 samples; a consumer step takes at most its
demand, and less than that is never there. -/
theorem ringIsNeverOverrun : Obligations.RingIsNeverOverrun := by
  intro s t h hsilent hrun hstep
  rw [step_of_silent h.legalParameters hsilent] at hstep
  have hblock : BlockStep s.nextSlot t := blockStep_of_scheduled hstep
  have hneed := h.need_le
  refine ⟨hneed, fun hshort hraw => ⟨by omega, hblock.avail_unpack h.nextSlot hrun hshort hraw⟩, fun henough => ?_⟩
  obtain ⟨n, hn, htakes⟩ := hblock.takes h.nextSlot hrun henough
  have havail : t.avail = s.avail - n := htakes.avail (hn.trans henough)
  have hle : n ≤ s.need := hn
  refine ⟨by omega, by omega, ?_⟩
  rw [show s.avail - t.avail = n by omega]
  exact htakes.rd_eq

end Sys2Proof.Machine

/-! The statements about single operations and about the memories. -/

namespace Sys2Proof.Machine

/-- Settles O15: the read of RAW is guarded by its range. -/
theorem unpackBeyondRawFaults : Obligations.UnpackBeyondRawFaults :=
  fun _ h => if_neg (not_lt.2 h)

/-- Settles O7: the four cases that lack lookahead are `avail < Need`, with the demand of each STATE written out. -/
theorem schedulerPrefersConsumer : Obligations.SchedulerPrefersConsumer := by
  intro s hc hsilent hrun _ u L avail needDelim needMan short
  have consumer (henough : s.need ≤ s.avail) : step s = exec (consumerOf s.cfg.strategy s.st) u := by
    rw [step_of_silent hc hsilent, scheduled_of_enough hrun henough]
    rfl
  have producer (hshort : short) : step s = exec (if s.rawIdx < s.cfg.rawCap then .unpack else .exhaust) u := by
    have hneed : s.avail < s.need := by
      obtain ⟨hst, h⟩ | ⟨hst, h⟩ | ⟨hst, hstrategy, h⟩ | ⟨hst, hstrategy, h⟩ := hshort
      · exact h.trans_eq (need_of_preamble hst).symm
      · exact h.trans_eq (need_of_delimiter hst).symm
      · exact h.trans_eq (need_of_nrz hst hstrategy).symm
      · exact h.trans_eq (need_of_man hst hstrategy).symm
    rw [step_of_silent hc hsilent, scheduled_of_short hrun hneed]
    rfl
  refine ⟨fun hst h => ?_, fun hst h => ?_, fun hst hstrategy h => ?_, fun hst hstrategy h => ?_,
    fun hshort hraw => ?_, fun hshort hraw => ?_⟩
  · rw [consumer ((need_of_preamble hst).trans_le h), hst, consumerOf]
  · rw [consumer ((need_of_delimiter hst).trans_le h), hst, consumerOf]
  · rw [consumer ((need_of_nrz hst hstrategy).trans_le h), hst, hstrategy, consumerOf]
  · rw [consumer ((need_of_man hst hstrategy).trans_le h), hst, hstrategy, consumerOf]
  · rw [producer hshort, if_pos hraw]
  · rw [producer hshort, if_neg (not_lt.2 hraw)]

/-! ## Where a DATA step stops -/

/-- The vote table holds the half of `n`, rounded up. -/
theorem maj_eq {n : Nat} (hn : n ≤ 10) : maj n = (n + 1) / 2 := by
  interval_cases n <;> rfl

/-- The vote is the majority, a tie counting as 1 (41_sync_clock.md R80). -/
theorem vote_eq {n : Nat} (hn : n ≤ 10) (w : Window) (i : Cursor) : vote w i n = decide (n ≤ 2 * ones w i n) := by
  rw [vote, maj_eq hn]
  exact decide_eq_decide.2 (by omega)

/-- `over` is set exactly by two silent groups of one level (42_decoders.md R106). -/
theorem overFlag_iff (a b : Nat) : overFlag a b = true ↔ a = 6 ∧ b = 6 ∨ a = 0 ∧ b = 0 := by
  simp [overFlag]

/-- The NRZ assembler stores a 1 that is not stuffed and a 0 that does not end the frame. -/
theorem asmNrz_stored (c : Config) (zeroRun : BitVec 3) (v : Bool) :
    (asmNrz c zeroRun v).stored ≠ none ↔
      if v then zeroRun.toNat < c.stuffThresh else (zeroRun + 1).toNat < 5 := by
  obtain ⟨rfl, h, heq⟩ | ⟨rfl, h, heq⟩ | ⟨rfl, h, heq⟩ | ⟨rfl, h, heq⟩ := asmNrz_cases c zeroRun v <;> rw [heq]
  · simpa using h
  · simpa using h
  · simpa using h
  · simpa using h

/-- Without room for its store, or with more than `MAX_BITS` bits, a DATA step faults (20_memory.md R41). -/
theorem withRoom_of_full {s : State} {a : Assembled} (body : Out)
    (h : s.cfg.maxBits < s.bitIdx ∨ s.bitIdx = s.cfg.maxBits ∧ a.stored ≠ none) :
    withRoom s a body = .fault .accRange :=
  if_neg fun hroom => by
    obtain h | ⟨heq, hstored⟩ := h
    · omega
    · exact hroom.elim (fun hlt => by omega) fun ⟨_, hnone⟩ => hstored hnone

theorem withRoom_of_room {s : State} {a : Assembled} (body : Out) (h : s.bitIdx < s.cfg.maxBits) :
    withRoom s a body = body :=
  if_pos (.inl h)

theorem withScorer_of_behind {s : State} (body : Out) (h : s.bitLen < s.cfg.edgeHalf + 2) :
    withScorer s body = .fault .behindCursor :=
  if_neg (by simpa [State.scorerAhead] using h)

/-- Settles O28: the lookahead is there, so what stops the step is its room in `ACC`, or else its scorer. -/
theorem dataStepsStopOutsideTheirConditions : Obligations.DataStepsStopOutsideTheirConditions := by
  intro s v stored a b silent
  have hover : overFlag s.groupA s.groupB = true ↔ silent := overFlag_iff s.groupA s.groupB
  have hbit (hsilent : ¬ silent) : overFlag s.groupA s.groupB = false := Bool.eq_false_iff.2 (mt hover.1 hsilent)
  refine ⟨fun hmay hfull => ?_, fun hmay hfull => ?_, fun hmay hsilent hroom hbehind => ?_⟩
  · have hvote : vote s.win s.rd s.bitLen = v := vote_eq hmay.2.1 s.win s.rd
    refine (withLookahead_of_mayConsume _ hmay).trans (withRoom_of_full _ ?_)
    rw [hvote, asmNrz_stored]
    exact hfull
  · refine (withLookahead_of_mayConsume _ hmay).trans (withRoom_of_full _ ?_)
    refine hfull.imp_right fun ⟨heq, hsilent⟩ => ⟨heq, ?_⟩
    rw [hbit hsilent, asmMan_bit]
    exact nofun
  · refine (withLookahead_of_mayConsume _ hmay).trans ((withRoom_of_room _ hroom).trans ?_)
    rw [hbit hsilent, asmMan_bit, if_neg (by simp)]
    exact withScorer_of_behind _ hbehind

/-! ## The accumulator -/

/-- A step of the block within DATA appends at most one cell. -/
theorem BlockStep.acc_append {s t : State} (h : BlockStep s t) (hst : s.st = .data) :
    s.bitIdx ≤ t.bitIdx ∧ t.bitIdx ≤ s.bitIdx + 1 ∧
      ∀ i, i < s.bitIdx → t.acc.getD i false = s.acc.getD i false := by
  cases h with
  | idle | exhaust | unpack | illegal => exact ⟨le_rfl, Nat.le_succ _, fun _ _ => rfl⟩
  | preHit _ _ hother | preMiss _ _ hother | delim _ _ _ hother => simp [hst] at hother
  | nrz _ _ _ _ _ _ _ _ hdata => exact hdata.acc_append
  | man _ _ _ _ _ _ _ _ _ hdata => exact hdata.acc_append
  | manOver => simp

/-- Settles O48: a DATA step appends, every other step that stays in DATA leaves the accumulator, and RESET and START
leave DATA. -/
theorem accumulatorIsAppendOnly : Obligations.AccumulatorIsAppendOnly := by
  intro s t hstep hs ht
  obtain ⟨-, hblock⟩ | ⟨i, -, hcommand⟩ := step_cases hstep
  · exact hblock.acc_append hs
  · cases hcommand with
    | unchanged | gate | capture => exact ⟨le_rfl, Nat.le_succ _, fun _ _ => rfl⟩
    | reset => cases ht
    | start => cases ht

/-! ## The memories and the parameters -/

/-- The step writes neither the parameters nor `RAW`, and `FRAME_OUT` only as it ends FRAME_VALID. -/
structure KeepsMemories (s t : State) : Prop where
  cfg_eq : t.cfg = s.cfg
  raw_eq : t.raw = s.raw
  frameOut : t.frameOut = s.frameOut ∨ t.run = false ∧ t.result = .frameValid

theorem validate_keepsMemories (s : State) : KeepsMemories s s.validate :=
  ⟨validate_cfg s, validate_raw s, (validate_frameOut s).imp_right fun h => ⟨validate_run s, h⟩⟩

theorem DelimStep.keepsMemories {s t : State} {o : Int} (h : DelimStep s o t) : KeepsMemories s t := by
  cases h <;> exact ⟨rfl, rfl, .inl rfl⟩

theorem DataStep.keepsMemories {s t : State} {rd : Cursor} {ov : Bool} {a : Assembled} (h : DataStep s rd ov a t) :
    KeepsMemories s t := by
  obtain rfl | ⟨rfl, -⟩ := h.outcome
  · obtain ⟨hcfg, hraw, hframe⟩ := validate_keepsMemories (({ s with rd := rd, manOver := ov } : State).assemble a)
    exact ⟨by simp, by simp, by simpa using hframe⟩
  · exact ⟨by simp, by simp, .inl (by simp)⟩

theorem BlockStep.keepsMemories {s t : State} (h : BlockStep s t) : KeepsMemories s t := by
  cases h with
  | idle | exhaust | unpack | preHit | preMiss | illegal => exact ⟨rfl, rfl, .inl rfl⟩
  | delim _ _ _ _ _ _ _ hdelim => exact hdelim.keepsMemories
  | nrz _ _ _ _ _ _ _ _ hdata => exact hdata.keepsMemories
  | man _ _ _ _ _ _ _ _ _ hdata => exact hdata.keepsMemories
  | manOver =>
    obtain ⟨hcfg, hraw, hframe⟩ := validate_keepsMemories ({ s with manOver := true } : State)
    exact ⟨hcfg, hraw, hframe⟩

/-- An idle block keeps every memory. -/
theorem BlockStep.eq_of_idle {s t : State} (h : BlockStep s t) (hrun : s.run = false) : t = s := by
  cases h with
  | idle => rfl
  | exhaust hgo | unpack hgo | preHit hgo | preMiss hgo | delim _ hgo | nrz _ _ hgo | man _ _ hgo | manOver hgo
  | illegal hgo => simp [hrun] at hgo

/-- Settles O50: of the host's commands only CAPTURE writes a memory; a step of the block writes at most the frame it
ends with. -/
theorem memoriesHaveOneWriterEach : Obligations.MemoriesHaveOneWriterEach := by
  intro s t hstep
  obtain ⟨hsilent, hblock⟩ | ⟨i, hissues, hcommand⟩ := step_cases hstep
  · obtain ⟨hcfg, hraw, hframe⟩ := hblock.keepsMemories
    refine ⟨hcfg, fun hne => absurd hraw hne, fun hne => ?_⟩
    obtain ⟨hstop, hvalid⟩ := hframe.resolve_left hne
    have hrun : s.run = true := by
      by_contra hidle
      have hsame : t = s.nextSlot := hblock.eq_of_idle (Bool.eq_false_iff.2 hidle)
      exact hne (congrArg State.frameOut hsame :)
    exact ⟨hrun, hsilent, hstop, hvalid⟩
  · cases hcommand with
    | unchanged | reset | gate | start => exact ⟨rfl, fun hne => absurd rfl hne, fun hne => absurd rfl hne⟩
    | capture samples hcapture hrun =>
      exact ⟨rfl, fun _ => ⟨hrun, samples, hcapture ▸ hissues⟩, fun hne => absurd rfl hne⟩

end Sys2Proof.Machine

/-! A consumer step reads only its lookahead (20_memory.md R35). Changing the window commutes with every register
update, and each read of the window falls on a sample of the lookahead. -/

namespace Sys2Proof.Machine

/-- The state with another window. -/
def State.withWin (s : State) (w : Window) : State :=
  { s with win := w }

@[simp] theorem withWin_cfg (s : State) (w : Window) : (s.withWin w).cfg = s.cfg := rfl
@[simp] theorem withWin_win (s : State) (w : Window) : (s.withWin w).win = w := rfl
@[simp] theorem withWin_acc (s : State) (w : Window) : (s.withWin w).acc = s.acc := rfl
@[simp] theorem withWin_rd (s : State) (w : Window) : (s.withWin w).rd = s.rd := rfl
@[simp] theorem withWin_bitLen (s : State) (w : Window) : (s.withWin w).bitLen = s.bitLen := rfl
@[simp] theorem withWin_pol (s : State) (w : Window) : (s.withWin w).pol = s.pol := rfl
@[simp] theorem withWin_bitIdx (s : State) (w : Window) : (s.withWin w).bitIdx = s.bitIdx := rfl
@[simp] theorem withWin_zeroRun (s : State) (w : Window) : (s.withWin w).zeroRun = s.zeroRun := rfl

/-- The same outcome with another window: what a step that does not read the difference answers. -/
def outWithWin (w : Window) : Out → Out
  | .next t => .next (t.withWin w)
  | .fault r => .fault r
  | .refused r => .refused r

/-! ## The updates do not read the window -/

theorem withLookahead_withWin (strategy : Strategy) (st : SyncState) (s : State) (w : Window) (body : Out) :
    withLookahead strategy st (s.withWin w) (outWithWin w body) = outWithWin w (withLookahead strategy st s body) := by
  rw [withLookahead, withLookahead, apply_ite (outWithWin w), apply_ite (outWithWin w)]
  rfl

theorem withRoom_withWin (s : State) (w : Window) (a : Assembled) (body : Out) :
    withRoom (s.withWin w) a (outWithWin w body) = outWithWin w (withRoom s a body) := by
  rw [withRoom, withRoom, apply_ite (outWithWin w)]
  rfl

/-- Where the scorer would read behind the cursor its body is not looked at. -/
theorem withScorer_withWin {s : State} {w : Window} {body body' : Out}
    (h : s.cfg.edgeHalf + 2 ≤ s.bitLen → body' = outWithWin w body) :
    withScorer (s.withWin w) body' = outWithWin w (withScorer s body) := by
  by_cases hahead : s.cfg.edgeHalf + 2 ≤ s.bitLen
  · rw [h hahead, withScorer, withScorer, apply_ite (outWithWin w)]
    rfl
  · rw [withScorer_of_behind body (not_le.1 hahead)]
    exact withScorer_of_behind body' (not_le.1 hahead)

theorem delimFinalize_withWin (s : State) (w : Window) :
    (s.withWin w).delimFinalize = s.delimFinalize.withWin w := by
  rw [State.delimFinalize, State.delimFinalize, apply_ite (State.withWin · w)]
  rfl

theorem countEdge_withWin (s : State) (w : Window) : (s.withWin w).countEdge = s.countEdge.withWin w := by
  rw [State.countEdge, State.countEdge, apply_ite (State.withWin · w), ← delimFinalize_withWin]
  rfl

theorem delimStep_withWin (s : State) (w : Window) (edge : Int × Nat) :
    (s.withWin w).delimStep edge = (s.delimStep edge).withWin w := by
  simp only [State.delimStep, apply_ite (State.withWin · w), ← countEdge_withWin]
  rfl

theorem assemble_withWin (s : State) (w : Window) (a : Assembled) :
    (s.withWin w).assemble a = (s.assemble a).withWin w := by
  unfold State.assemble
  cases a.stored <;> rfl

theorem checkFrame_withWin (s : State) (w : Window) (frame : List Byte) :
    (s.withWin w).checkFrame frame = (s.checkFrame frame).withWin w := by
  simp only [State.checkFrame, apply_ite (State.withWin · w)]
  rfl

theorem validate_withWin (s : State) (w : Window) : (s.withWin w).validate = s.validate.withWin w := by
  simp only [State.validate, withWin_cfg, withWin_acc, withWin_bitIdx, checkFrame_withWin]
  cases s.cfg.eccEnable
  · rfl
  · cases Config.eccDecode (accBytes s.cfg s.acc (s.bitIdx / 8)) <;> rfl

theorem handOff_withWin (s : State) (w : Window) (eof : Bool) :
    (s.withWin w).handOff eof = (s.handOff eof).withWin w := by
  rw [State.handOff, State.handOff, apply_ite (State.withWin · w), ← validate_withWin]
  rfl

/-! ## The reads fall on the lookahead -/

/-- The search reads the samples from `base - 2 - h` to `base + 1 + h` alone (41_sync_clock.md R83). -/
theorem bestEdge_congr {h : Nat} {w w' : Window} {base : Cursor} (q : Bool)
    (hread : ∀ j : Int, -2 - (h : Int) ≤ j → j ≤ 1 + (h : Int) →
      winRead w' (base + BitVec.ofInt 5 j) = winRead w (base + BitVec.ofInt 5 j)) :
    bestEdge h w' base q = bestEdge h w base q := by
  have score (o : Int) (hlow : -2 ≤ o) (hhigh : o ≤ 2) : scoreAt h w' base q o = scoreAt h w base q o := by
    refine edgeScore_congr (fun k hk => ?_) (fun k hk => ?_)
    · have hcursor : base + BitVec.ofInt 5 o - BitVec.ofNat 5 (k + 1) = base + BitVec.ofInt 5 (o - (k + 1 : Nat)) := by
        rw [Int.sub_eq_add_neg, BitVec.ofInt_add, BitVec.ofInt_neg, BitVec.ofInt_natCast, add_sub_assoc, sub_eq_add_neg]
      rw [hcursor]
      exact hread _ (by omega) (by omega)
    · have hcursor : base + BitVec.ofInt 5 o + BitVec.ofNat 5 k = base + BitVec.ofInt 5 (o + k) := by
        rw [BitVec.ofInt_add, BitVec.ofInt_natCast, add_assoc]
      rw [hcursor]
      exact hread _ (by omega) (by omega)
  simp only [bestEdge, List.foldl_cons, List.foldl_nil, betterEdge, score (-2) (by decide) (by decide),
    score (-1) (by decide) (by decide), score 0 (by decide) (by decide), score 1 (by decide) (by decide),
    score 2 (by decide) (by decide)]

/-- The window `w` agrees with the state's on `n` samples of lookahead. -/
def AgreesAhead (s : State) (w : Window) (n : Nat) : Prop :=
  ∀ k, k < n → winRead w (s.rd + BitVec.ofNat 5 k) = s.ahead k

theorem AgreesAhead.mono {s : State} {w : Window} {m n : Nat} (h : AgreesAhead s w n) (hm : m ≤ n) :
    AgreesAhead s w m :=
  fun k hk => h k (hk.trans_le hm)

theorem AgreesAhead.vote {s : State} {w : Window} {n : Nat} (h : AgreesAhead s w n) :
    vote w s.rd n = vote s.win s.rd n := by
  rw [Machine.vote, Machine.vote, ones_congr h]

/-- The scorer at `rd + L` reads inside `L + 2 + EDGE_HALF` samples, and not behind `rd`. -/
theorem AgreesAhead.edgeAhead {s : State} {w : Window} (h : AgreesAhead s w (s.bitLen + 2 + s.cfg.edgeHalf))
    (hahead : s.cfg.edgeHalf + 2 ≤ s.bitLen) (q : Bool) : (s.withWin w).edgeAhead q = s.edgeAhead q := by
  refine bestEdge_congr (h := s.cfg.edgeHalf) (w := s.win) q fun j hlow hhigh => ?_
  simp only [withWin_rd, withWin_bitLen, withWin_win]
  rw [cursor_add_offset s.rd (by omega)]
  exact h _ (by omega)

theorem AgreesAhead.groupA {s : State} {w : Window} (h : AgreesAhead s w 6) : (s.withWin w).groupA = s.groupA :=
  ones_congr h

theorem AgreesAhead.groupB {s : State} {w : Window} (h : AgreesAhead s w (s.bitLen + 6)) :
    (s.withWin w).groupB = s.groupB :=
  ones_congr fun k hk => by
    have hread := h (s.bitLen + k) (Nat.add_lt_add_left hk _)
    rwa [BitVec.ofNat_add, ← add_assoc, State.ahead, BitVec.ofNat_add, ← add_assoc] at hread

/-- The resync reads the first sample and the one just past the bit (42_decoders.md R102). -/
theorem AgreesAhead.nrzCursor {s : State} {w : Window} (h : AgreesAhead s w (s.bitLen + 1)) (v : Bool) :
    (s.withWin w).nrzCursor v = s.nrzCursor v := by
  have hfirst : winRead w s.rd = winRead s.win s.rd := by simpa [State.ahead] using h 0 (by omega)
  have hpast : winRead w (s.rd + BitVec.ofNat 5 s.bitLen) = winRead s.win (s.rd + BitVec.ofNat 5 s.bitLen) :=
    h s.bitLen (by omega)
  simp only [State.nrzCursor, withWin_rd, withWin_bitLen, withWin_win, hfirst, hpast]

theorem AgreesAhead.manCursor {s : State} {w : Window} (h : AgreesAhead s w (s.bitLen + 2 + s.cfg.edgeHalf))
    (hahead : s.cfg.edgeHalf + 2 ≤ s.bitLen) (v : Bool) : (s.withWin w).manCursor v = s.manCursor v := by
  simp only [State.manCursor, withWin_rd, withWin_bitLen, h.edgeAhead hahead]

/-! ## The consumer steps -/

theorem AgreesAhead.execPre {s : State} {w : Window} (h : AgreesAhead s w s.bitLen) :
    execPre (s.withWin w) = outWithWin w (execPre s) := by
  rw [Machine.execPre, Machine.execPre, ← withLookahead_withWin]
  simp only [withWin_cfg, withWin_rd, withWin_bitLen, withWin_win, h.vote]
  cases Machine.vote s.win s.rd s.bitLen <;> rfl

theorem AgreesAhead.execDelim {s : State} {w : Window} (h : AgreesAhead s w (s.bitLen + 2 + max s.cfg.edgeHalf 10)) :
    execDelim (s.withWin w) = outWithWin w (execDelim s) := by
  have hscorer : AgreesAhead s w (s.bitLen + 2 + s.cfg.edgeHalf) := h.mono (by omega)
  rw [Machine.execDelim, Machine.execDelim, ← withLookahead_withWin]
  refine congrArg (withLookahead _ _ _) (withScorer_withWin fun hahead => ?_)
  rw [withWin_pol, hscorer.edgeAhead hahead, delimStep_withWin]
  rfl

theorem AgreesAhead.execDataNrz {s : State} {w : Window} (h : AgreesAhead s w (s.bitLen + 1)) :
    execDataNrz (s.withWin w) = outWithWin w (execDataNrz s) := by
  have hbit : AgreesAhead s w s.bitLen := h.mono (Nat.le_succ _)
  rw [Machine.execDataNrz, Machine.execDataNrz, ← withLookahead_withWin]
  simp only [withWin_cfg, withWin_rd, withWin_bitLen, withWin_win, withWin_zeroRun, hbit.vote, h.nrzCursor]
  rw [← withRoom_withWin, outWithWin, ← handOff_withWin, ← assemble_withWin]
  rfl

theorem AgreesAhead.execDataMan {s : State} {w : Window}
    (h : AgreesAhead s w (max (2 * s.bitLen + 2) (max (s.bitLen + 6) (s.bitLen + 2 + s.cfg.edgeHalf)))) :
    execDataMan (s.withWin w) = outWithWin w (execDataMan s) := by
  have hgroupA : AgreesAhead s w 6 := h.mono (by omega)
  have hgroupB : AgreesAhead s w (s.bitLen + 6) := h.mono (by omega)
  have hscorer : AgreesAhead s w (s.bitLen + 2 + s.cfg.edgeHalf) := h.mono (by omega)
  rw [Machine.execDataMan, Machine.execDataMan, ← withLookahead_withWin]
  simp only [withWin_zeroRun, hgroupA.groupA, hgroupB.groupB]
  rw [← withRoom_withWin, apply_ite (outWithWin w), outWithWin, ← validate_withWin, ← assemble_withWin]
  refine congrArg (fun body => withLookahead _ _ _ (withRoom _ _ (ite _ _ body))) (withScorer_withWin fun hahead => ?_)
  rw [hscorer.manCursor hahead, outWithWin, ← handOff_withWin, ← assemble_withWin]
  rfl

/-- With another window that agrees on the demand of the step, a consumer step has the same outcome. -/
theorem exec_withWin {s : State} {w : Window} {i : Instr} {n : Nat}
    (hi : i = .pre ∧ n = s.bitLen ∨
      i = .delim ∧ n = s.bitLen + 2 + max s.cfg.edgeHalf 10 ∨
      i = .dataNrz ∧ n = s.bitLen + 1 ∨
      i = .dataMan ∧ n = max (2 * s.bitLen + 2) (max (s.bitLen + 6) (s.bitLen + 2 + s.cfg.edgeHalf)))
    (h : AgreesAhead s w n) : exec i (s.withWin w) = outWithWin w (exec i s) := by
  obtain ⟨rfl, rfl⟩ | ⟨rfl, rfl⟩ | ⟨rfl, rfl⟩ | ⟨rfl, rfl⟩ := hi
  · exact h.execPre
  · exact h.execDelim
  · exact h.execDataNrz
  · exact h.execDataMan

/-- Settles O45: the outcome with the other window is the outcome with that window put in. -/
theorem consumerReadsOnlyItsLookahead : Obligations.ConsumerReadsOnlyItsLookahead := by
  intro s w i n hi h
  have same : exec i (s.withWin w) = outWithWin w (exec i s) := exec_withWin hi h
  exact ⟨fun t ht => same.trans (congrArg (outWithWin w) ht), fun r hr => same.trans (congrArg (outWithWin w) hr),
    fun r hr => same.trans (congrArg (outWithWin w) hr)⟩

end Sys2Proof.Machine

/-! Proofs of the encoding statements (30_encoding.md): first that packing and unpacking samples undo each other
(R51), then the decoder and the encoder (R62 to R67), then the codes the host reads (R60). -/

namespace Sys2Proof.Machine

/-! ## Samples and bytes -/

/-- Two lists of `8n` samples are equal when they agree at sample `k` of each byte `i`. -/
theorem samples_ext {l l' : List Bool} {n : Nat} (hl : l.length = 8 * n) (hl' : l'.length = 8 * n)
    (h : ∀ i k, i < n → k < 8 → l.getD (8 * i + k) false = l'.getD (8 * i + k) false) : l = l' := by
  refine List.ext_getElem (hl.trans hl'.symm) fun m hm hm' => ?_
  have hsplit : 8 * (m / 8) + m % 8 = m := Nat.div_add_mod m 8
  have hm8 := h (m / 8) (m % 8) (by omega) (by omega)
  rwa [hsplit, List.getD_eq_getElem _ _ hm, List.getD_eq_getElem _ _ hm'] at hm8

/-- Whole bytes of samples are unpacked as they were packed. -/
theorem unpackSamples_packSamples {samples : List Bool} {n : Nat} (h : samples.length = 8 * n) :
    unpackSamples (packSamples n samples) = samples := by
  refine samples_ext (by simp) h fun i k hi hk => ?_
  rw [unpackSamples_getD _ (by simpa using hi) hk, packSamples_getD samples hi, byteOf_getLsbD _ hk]

/-- Bytes are packed as they were unpacked. -/
theorem packSamples_unpackSamples (bytes : List Byte) : packSamples bytes.length (unpackSamples bytes) = bytes := by
  refine List.ext_getElem (by simp) fun i _ hi => ?_
  calc (packSamples bytes.length (unpackSamples bytes))[i]
      = byteOf fun k => (unpackSamples bytes).getD (8 * i + k) false := by simp [packSamples]
    _ = byteOf bytes[i].getLsbD := byteOf_congr fun k hk => by
        rw [unpackSamples_getD bytes hi hk, List.getD_eq_getElem _ _ hi]
    _ = bytes[i] := byteOf_getLsbD_self _

/-! ## The encoder -/

/-- Settles O4: a CAPTURE's samples fill whole bytes, so packing loses none of them; every other instruction's word is
its own row's. -/
theorem decodeOfEncodeIsIdentity : Obligations.DecodeOfEncodeIsIdentity := by
  intro c i hi
  cases i with
  | capture samples =>
    have hlength : samples.length = 8 * c.rawCap := by simpa [Instr.wellFormed] using hi
    have hwhole : samples.length = 8 * (samples.length / 8) := by omega
    exact congrArg (fun l => Except.ok (Instr.capture l)) (unpackSamples_packSamples hwhole)
  | idle | exhaust | unpack | pre | delim | dataNrz | dataMan | illegal
  | nop | reset | gate | start | reserved5 | reserved6 | reserved7 => rfl

/-! ## The micro-operation map -/

/-- The patterns are disjoint and cover all 64 words (30_encoding.md R63). -/
theorem dispatchRows_match_one (d : DispatchWord) :
    (dispatchRows.filter fun r => d &&& r.mask == r.pattern).length = 1 := by
  revert d; decide

/-- As no other row matches, a word that matches a row decodes to that row's micro-operation. -/
theorem selects_of_mem {mask pattern : DispatchWord} {i : Instr} (h : ⟨mask, pattern, i⟩ ∈ dispatchRows) :
    Selects mask pattern i := by
  intro d hd
  obtain ⟨r, hr⟩ := List.length_eq_one_iff.1 (dispatchRows_match_one d)
  have hmem : ⟨mask, pattern, i⟩ ∈ dispatchRows.filter fun r => d &&& r.mask == r.pattern :=
    List.mem_filter.2 ⟨h, beq_iff_eq.2 hd⟩
  rw [hr, List.mem_singleton] at hmem
  have hfind : (dispatchRows.find? fun r => d &&& r.mask == r.pattern) = some ⟨mask, pattern, i⟩ := by
    rw [← List.head?_filter, hr, hmem, List.head?_cons]
  simp only [decode, decodeDispatch, hfind]

/-- What the dispatch word says of RUN, ENOUGH and STATE alone: the bits that the mask `0x33` keeps. -/
theorem dispatchWord_and_0x33 (s : State) :
    dispatchWord s &&& 0x33 = BitVec.ofBool s.run ++ BitVec.ofBool s.enough ++ 0#2 ++ syncCode s.st := by
  have bits (run enough more man : Bool) (code : BitVec 2) :
      (BitVec.ofBool run ++ BitVec.ofBool enough ++ BitVec.ofBool more ++ BitVec.ofBool man ++ code) &&& 0x33 =
        BitVec.ofBool run ++ BitVec.ofBool enough ++ 0#2 ++ code := by
    revert run enough more man code; decide
  exact bits _ _ _ _ _

/-- `10xx11` would be a running block in the reserved STATE without its lookahead, but that STATE demands none. -/
theorem dispatchWord_ne_10xx11 (s : State) : dispatchWord s &&& 0x33 ≠ 0x23 := by
  rw [dispatchWord_and_0x33]
  cases hst : s.st with
  | reserved => rw [enough_of_reserved hst]; cases s.run <;> decide
  | preamble | delimiter | data => cases s.run <;> cases s.enough <;> decide

/-- The reserved STATE of a running block schedules ILLEGAL (30_encoding.md R63). -/
theorem scheduled_of_reserved {s : State} (hrun : s.run = true) (hst : s.st = .reserved) :
    s.scheduled = .illegal := by
  rw [scheduled_of_enough hrun (by simp [need_of_reserved hst]), hst, consumerOf]

/-- Settles O1: each pattern is a row of the map, and one row alone matches. -/
theorem dispatchMapIsTotalAndDisjoint : Obligations.DispatchMapIsTotalAndDisjoint :=
  ⟨selects_of_mem (by decide), selects_of_mem (by decide), selects_of_mem (by decide), selects_of_mem (by decide),
    selects_of_mem (by decide), selects_of_mem (by decide), selects_of_mem (by decide), selects_of_mem (by decide),
    dispatchRows_match_one, dispatchWord_ne_10xx11,
    fun s hrun hst => (decode_dispatchWord s).trans (congrArg _ (scheduled_of_reserved hrun hst))⟩

/-! ## The bits of the dispatch word -/

/-- The fields of a dispatch word, from bit 5 down (30_encoding.md R62). -/
theorem dispatchWord_bits (s : State) :
    (dispatchWord s).getLsbD 5 = s.run ∧ (dispatchWord s).getLsbD 4 = s.enough ∧
      (dispatchWord s).getLsbD 3 = s.more ∧ (dispatchWord s).getLsbD 2 = strategyCode s.cfg.strategy ∧
      (dispatchWord s).extractLsb' 0 2 = syncCode s.st := by
  have bits (run enough more man : Bool) (code : BitVec 2) :
      let d := BitVec.ofBool run ++ BitVec.ofBool enough ++ BitVec.ofBool more ++ BitVec.ofBool man ++ code
      d.getLsbD 5 = run ∧ d.getLsbD 4 = enough ∧ d.getLsbD 3 = more ∧ d.getLsbD 2 = man ∧
        d.extractLsb' 0 2 = code := by
    revert run enough more man code; decide
  exact bits _ _ _ _ _

theorem strategyCode_eq (strategy : Strategy) : strategyCode strategy = decide (strategy = .man) := by
  cases strategy <;> rfl

/-- Settles O5: each bit is its field, and ENOUGH's demand is the one of R38 in each STATE. -/
theorem dispatchWordBitsAreTheSchedulersFacts : Obligations.DispatchWordBitsAreTheSchedulersFacts := by
  intro s L need
  obtain ⟨hrun, henough, hmore, hstrategy, hst⟩ := dispatchWord_bits s
  have hneed : s.need = need := by
    cases hcode : s.st with
    | preamble => simp only [need, need_of_preamble hcode, hcode]; rfl
    | delimiter => simp only [need, need_of_delimiter hcode, hcode]; rfl
    | reserved => simp only [need, need_of_reserved hcode, hcode]
    | data =>
      cases hbuilt : s.cfg.strategy with
      | nrz => simp only [need, need_of_nrz hcode hbuilt, hcode, hbuilt]; rfl
      | man => simp only [need, need_of_man hcode hbuilt, hcode, hbuilt]; rfl
  refine ⟨hrun, ?_, hmore, hstrategy.trans (strategyCode_eq _), hst.trans ?_⟩
  · rw [henough, State.enough, hneed]
    rfl
  · cases s.st <;> rfl

/-! ## The host's codes -/

/-- Settles O2: a command reads its own operand alone. -/
theorem hostCodesDecodeByTable : Obligations.HostCodesDecodeByTable :=
  ⟨fun _ _ => rfl, fun _ _ => rfl, fun _ _ => rfl, fun _ _ => rfl, fun _ _ => rfl, fun _ _ => rfl, fun _ _ => rfl,
    fun _ _ => rfl⟩

/-- Settles O3: closed words, decoded by evaluation. -/
theorem writtenOutWordsDecode : Obligations.WrittenOutWordsDecode :=
  ⟨rfl, rfl, rfl, rfl, rfl, rfl, rfl, rfl, rfl, rfl, rfl⟩

/-- Settles O11: the codes decode by the table, and each of these meanings answers the state it was given. -/
theorem nopAndReservedCodesChangeNothing : Obligations.NopAndReservedCodesChangeNothing :=
  have ⟨hnop, _, _, _, _, h5, h6, h7⟩ := hostCodesDecodeByTable
  ⟨hnop, h5, h6, h7, fun _ => ⟨rfl, rfl, rfl, rfl, rfl⟩⟩

/-! ## The RESULT codes -/

/-- The outcome with the given code (30_encoding.md R60). -/
def resultOf (code : BitVec 3) : Result :=
  match code.toNat with
  | 0 => .none
  | 1 => .frameValid
  | 2 => .abortExhausted
  | 3 => .abortBadDelimiter
  | 4 => .rejectEcc
  | 5 => .rejectLength
  | 6 => .rejectChecksum
  | _ => .faultIllegal

theorem resultOf_resultCode (r : Result) : resultOf (resultCode r) = r := by
  cases r <;> rfl

/-- Settles O55: a code gives its outcome back, so no two share one; RESET and the two halts write theirs. -/
theorem resultReadsAsItsCode : Obligations.ResultReadsAsItsCode := by
  refine ⟨fun s => ?_, fun r r' h => Function.LeftInverse.injective resultOf_resultCode h,
    fun s => ⟨⟨_, rfl, rfl⟩, ⟨_, rfl, rfl⟩, ⟨_, rfl, rfl⟩⟩⟩
  unfold State.resultRead
  cases s.result <;> rfl

end Sys2Proof.Machine

/-! Proof of the statement about ACQUIRE (30_encoding.md R69): what each of its commands does to a block that waits,
then the schedule as a run. -/

namespace Sys2Proof.Machine

/-- A run goes on from the next state of its first step. -/
theorem run_succ_of_step {M : Host.Core} {s t : M.State} (h : M.step s = .next t) (k : Nat) :
    M.run (k + 1) s = M.run k t := by
  rw [Host.Core.run, h]

/-- The command in the host's slot runs, where it is well-formed. -/
theorem step_of_slot {s : State} {w : HostWord} {rest : List (Option HostWord)} (hc : legal s.cfg)
    (hslot : s.inbox = some w :: rest) (hw : (decodeHost w).wellFormed s.cfg = true) :
    step s = exec (decodeHost w) { s with inbox := rest } := by
  have hissues : s.hostIssues (decodeHost w) := ⟨w, by simp [hslot], rfl⟩
  rw [step_of_hostIssues hc hissues hw, State.nextSlot, hslot, List.tail_cons]

/-! ## The commands of the schedule -/

/-- A reading above the threshold counts while the gate is not open (45_host_ops.md R153). -/
theorem step_gate {s : State} {rssi : Nat} {rest : List (Option HostWord)} (hc : legal s.cfg) (hrun : s.run = false)
    (habove : s.cfg.rssiThresh < rssi) (hopen : s.gateCnt < s.cfg.rssiHold)
    (hslot : s.inbox = some ⟨0b010, rssi, []⟩ :: rest) :
    step s = .next { s with inbox := rest, gateCnt := s.gateCnt + 1 } := by
  refine (step_of_slot hc hslot rfl).trans (execGate_next.2 ?_)
  simp only [State.gateLegal, hrun, gateCount, if_pos habove, if_pos hopen]
  rfl

/-- CAPTURE with the gate open fills `RAW` with the burst's bytes (45_host_ops.md R154). -/
theorem step_capture {s : State} {rssi : Nat} {line : List Byte} {rest : List (Option HostWord)} (hc : legal s.cfg)
    (hrun : s.run = false) (hopen : s.gateCnt = s.cfg.rssiHold) (hline : line.length = s.cfg.rawCap)
    (hslot : s.inbox = some ⟨0b011, rssi, line⟩ :: rest) :
    step s =
      .next { s with inbox := rest, raw := s.raw.writeBytes 0 line, rawLoaded := true, gateCnt := 0 } := by
  have hsize : (unpackSamples line).length = 8 * s.cfg.rawCap := by rw [unpackSamples_length, hline]
  have hwf : (Instr.capture (unpackSamples line)).wellFormed s.cfg = true := beq_iff_eq.2 hsize
  refine (step_of_slot hc hslot hwf).trans (execCapture_next.2 ⟨hsize, ?_⟩)
  simp only [State.captureLegal, State.gateOpen, hrun, hopen, beq_self_eq_true, ← hline, packSamples_unpackSamples]
  rfl

/-- START with `RAW` loaded begins a decode (45_host_ops.md R155). -/
theorem step_start {s : State} {rest : List (Option HostWord)} (hc : legal s.cfg) (hrun : s.run = false)
    (hloaded : s.rawLoaded = true) (hslot : s.inbox = some (.plain 0b100) :: rest) :
    step s = .next { ({ s with inbox := rest } : State).initDecode with run := true } := by
  refine (step_of_slot hc hslot rfl).trans (execStart_next.2 ?_)
  simp only [State.startLegal, hrun, hloaded]
  rfl

/-! ## The schedule -/

/-- `n` readings above the threshold raise the count by `n`, as long as it does not saturate. -/
theorem run_gates {rssi : Nat} {rest : List (Option HostWord)} (n k : Nat) {s : State} (hc : legal s.cfg)
    (hrun : s.run = false) (habove : s.cfg.rssiThresh < rssi) (hcount : s.gateCnt + n ≤ s.cfg.rssiHold)
    (hslots : s.inbox = List.replicate n (some ⟨0b010, rssi, []⟩) ++ rest) :
    Sys2Proof.core.run (n + k) s =
      Sys2Proof.core.run k { s with inbox := rest, gateCnt := s.gateCnt + n } := by
  induction n generalizing s with
  | zero =>
    rw [List.replicate_zero, List.nil_append] at hslots
    rw [Nat.zero_add, Nat.add_zero, ← hslots]
  | succ n ih =>
    rw [List.replicate_succ, List.cons_append] at hslots
    let t : State :=
      { s with inbox := List.replicate n (some ⟨0b010, rssi, []⟩) ++ rest, gateCnt := s.gateCnt + 1 }
    have hstep : step s = .next t := step_gate hc hrun habove (by omega) hslots
    have hcount' : t.gateCnt + n = s.gateCnt + (n + 1) := Nat.add_right_comm s.gateCnt 1 n
    have hrest := ih (s := t) hc hrun habove (hcount'.trans_le hcount) rfl
    rw [hcount'] at hrest
    rw [Nat.add_right_comm]
    exact (run_succ_of_step (M := Sys2Proof.core) hstep (n + k)).trans hrest

/-- ACQUIRE from a waiting block with the gate count at 0: the readings open the gate, CAPTURE loads the burst through
it, and START finds `RAW` loaded. -/
theorem run_acquire {s : State} {rssi : Nat} {line : List Byte} (hc : legal s.cfg) (hrun : s.run = false)
    (hgate : s.gateCnt = 0) (habove : s.cfg.rssiThresh < rssi) (hline : line.length = s.cfg.rawCap)
    (hslots : s.inbox = acquire s.cfg rssi line) :
    Sys2Proof.core.run (s.cfg.rssiHold + 2) s =
      .next
        { ({ s with
            inbox := [], raw := s.raw.writeBytes 0 line, rawLoaded := true, gateCnt := 0 } : State).initDecode with
          run := true } := by
  have hopen : s.gateCnt + s.cfg.rssiHold = s.cfg.rssiHold := by rw [hgate, Nat.zero_add]
  have hgates := run_gates s.cfg.rssiHold 2 hc hrun habove hopen.le hslots
  have hcapture := step_capture
    (s := { s with
      inbox := [some ⟨0b011, 0, line⟩, some (.plain 0b100)], gateCnt := s.gateCnt + s.cfg.rssiHold })
    hc hrun hopen hline rfl
  have hstart := step_start
    (s := { s with
      inbox := [some (.plain 0b100)], raw := s.raw.writeBytes 0 line, rawLoaded := true, gateCnt := 0 })
    hc hrun rfl rfl
  exact hgates.trans ((run_succ_of_step (M := Sys2Proof.core) hcapture 1).trans
    (run_succ_of_step (M := Sys2Proof.core) hstart 0))

/-- Settles O40: the reset state waits with its gate count at 0, and the burst written to `RAW` reads back. -/
theorem acquireStartsADecode : Obligations.AcquireStartsADecode := by
  intro c rssi line hc habove hline
  have hrun := run_acquire (s := { State.resetOf c with inbox := acquire c rssi line }) hc rfl rfl habove hline rfl
  refine ⟨_, hrun, rfl, rfl, rfl, rfl, fun i hi => ?_⟩
  have hread := Memory.read_writeBytes Memory.wf_nil line (a := 0) (hline.symm ▸ hi)
  rwa [Nat.zero_add] at hread

end Sys2Proof.Machine

/-! Proofs of the statements about the line format (30_encoding.md R52 to R58): the assembler undoes the stuffing, and
the validator takes the bits of a sent frame as that frame. -/

namespace Sys2Proof.Machine

/-! ## Stuffing -/

/-- A bit that does not end the frame: what it stores goes before what the rest stores. -/
theorem asmNrzAll_cons {c : Config} {zeroRun next : BitVec 3} {v : Bool} {stored : Option Bool}
    (h : asmNrz c zeroRun v = ⟨stored, next, false⟩) (rest : List Bool) :
    asmNrzAll c zeroRun (v :: rest) = (stored.toList ++ (asmNrzAll c next rest).1, (asmNrzAll c next rest).2) := by
  rw [asmNrzAll, h]
  rfl

/-! The bits that do not end the frame (43_assembler.md R121). -/

theorem asmNrz_stuffed {c : Config} {zeroRun : BitVec 3} (h : c.stuffThresh ≤ zeroRun.toNat) :
    asmNrz c zeroRun true = ⟨none, 0, false⟩ := if_pos h

theorem asmNrz_one {c : Config} {zeroRun : BitVec 3} (h : zeroRun.toNat < c.stuffThresh) :
    asmNrz c zeroRun true = ⟨some true, 0, false⟩ := if_neg (not_le.2 h)

theorem asmNrz_zero (c : Config) {zeroRun : BitVec 3} (h : (zeroRun + 1).toNat < 5) :
    asmNrz c zeroRun false = ⟨some false, zeroRun + 1, false⟩ := if_neg (not_le.2 h)

/-- The terminal run after `z` zeros: `4 - z` of its zeros are stored, and the next one ends the frame. -/
theorem asmNrzAll_terminal (c : Config) {zeroRun : BitVec 3} (h : zeroRun.toNat ≤ 4) :
    asmNrzAll c zeroRun (List.replicate 5 false) = (List.replicate (4 - zeroRun.toNat) false, 5, true) := by
  obtain ⟨z, hz, rfl⟩ : ∃ z, z ≤ 4 ∧ zeroRun = BitVec.ofNat 3 z := ⟨zeroRun.toNat, h, by simp⟩
  interval_cases z <;> rfl

/-- From a run of zeros that transmitter and receiver count alike, the assembler stores the data bits and at most four
zeros of the terminal run. -/
theorem asmNrzAll_stuffFrom {c : Config} (hpos : 1 ≤ c.stuffThresh) (hmax : c.stuffThresh < 5) (bits : List Bool)
    {zeroRun : BitVec 3} (hz : zeroRun.toNat < c.stuffThresh) :
    ∃ zeros, zeros ≤ 4 ∧
      asmNrzAll c zeroRun (stuffFrom c.stuffThresh zeroRun.toNat bits ++ List.replicate 5 false) =
        (bits ++ List.replicate zeros false, 5, true) := by
  induction bits generalizing zeroRun with
  | nil => exact ⟨4 - zeroRun.toNat, Nat.sub_le .., asmNrzAll_terminal c (by omega)⟩
  | cons b bits ih =>
    cases b with
    | true =>
      obtain ⟨zeros, hzeros, heq⟩ := ih (zeroRun := 0) hpos
      refine ⟨zeros, hzeros, ?_⟩
      rw [stuffFrom, List.cons_append, asmNrzAll_cons (asmNrz_one hz)]
      exact congrArg (fun r => (true :: r.1, r.2)) heq
    | false =>
      have hnext : (zeroRun + 1).toNat = zeroRun.toNat + 1 := by bv_omega
      by_cases hstuff : zeroRun.toNat + 1 = c.stuffThresh
      · obtain ⟨zeros, hzeros, heq⟩ := ih (zeroRun := 0) hpos
        refine ⟨zeros, hzeros, ?_⟩
        rw [stuffFrom, if_pos hstuff, List.cons_append, List.cons_append, asmNrzAll_cons (asmNrz_zero c (by omega)),
          asmNrzAll_cons (asmNrz_stuffed (hstuff.symm.trans hnext.symm).le)]
        exact congrArg (fun r => (false :: r.1, r.2)) heq
      · obtain ⟨zeros, hzeros, heq⟩ := ih (zeroRun := zeroRun + 1) (by omega)
        refine ⟨zeros, hzeros, ?_⟩
        rw [stuffFrom, if_neg hstuff, List.cons_append, asmNrzAll_cons (asmNrz_zero c (by omega)), ← hnext]
        exact congrArg (fun r => (false :: r.1, r.2)) heq

/-- Settles O53: by K7 the threshold is in 1..4, and both sides start from no zeros. -/
theorem assemblerUndoesStuffing : Obligations.AssemblerUndoesStuffing := by
  intro c bits ⟨_, ⟨_, _, _, _, _, _, ⟨hpos, hmax⟩, _⟩⟩
  exact asmNrzAll_stuffFrom hpos hmax bits hpos

/-! ## The bytes of the accumulator -/

/-- Bit `k` of `AccByte(i)` (30_encoding.md R56). -/
theorem accByte_getLsbD (c : Config) (acc : List Bool) (i : Nat) {k : Nat} (hk : k < 8) :
    (accByte c acc i).getLsbD k = acc.getD (8 * i + if c.payloadMsbFirst then 7 - k else k) false :=
  byteOf_getLsbD _ hk

/-- Settles O30: with the first bit highest, cell `8i + j` is bit `7 - j`, as `7 - (7 - j) = j`. -/
theorem accByteFollowsBitOrder : Obligations.AccByteFollowsBitOrder := by
  intro c acc i j hj
  refine ⟨fun hmsb => ?_, fun hlsb => ?_⟩
  · rw [accByte_getLsbD c acc i (by omega), if_pos hmsb, Nat.sub_sub_self (by omega)]
  · rw [accByte_getLsbD c acc i hj, if_neg (by simp [hlsb])]

/-- The bits of one byte in the order they are sent (30_encoding.md R56). -/
def sentBits (c : Config) (b : Byte) : List Bool :=
  if c.payloadMsbFirst then (sampleBits b).reverse else sampleBits b

@[simp] theorem sentBits_length (c : Config) (b : Byte) : (sentBits c b).length = 8 := by
  unfold sentBits
  split <;> simp

/-- A frame's bits are those of its bytes, one after the other. -/
theorem frameBits_cons (c : Config) (b : Byte) (frame : List Byte) :
    frameBits c (b :: frame) = sentBits c b ++ frameBits c frame := rfl

@[simp] theorem frameBits_length (c : Config) (frame : List Byte) :
    (frameBits c frame).length = 8 * frame.length := by
  induction frame with
  | nil => rfl
  | cons b frame ih => rw [frameBits_cons, List.length_append, sentBits_length, ih, List.length_cons]; omega

/-- The accumulator's first byte reads a byte as it was sent. -/
theorem accByte_zero_sent (c : Config) (b : Byte) (rest : List Bool) :
    accByte c (sentBits c b ++ rest) 0 = b := by
  refine BitVec.eq_of_getLsbD_eq fun k hk => ?_
  rw [accByte_getLsbD c _ 0 hk, sentBits]
  cases c.payloadMsbFirst <;> interval_cases k <;> rfl

/-- Behind eight cells the bytes are those of the cells that follow. -/
theorem accByte_append_succ (c : Config) {first : List Bool} (hfirst : first.length = 8) (acc : List Bool) (i : Nat) :
    accByte c (first ++ acc) (i + 1) = accByte c acc i := by
  refine byteOf_congr fun k _ => ?_
  rw [List.getD_append_right _ _ _ _ (by omega), hfirst]
  congr 1
  omega

/-- Of the bits of a sent frame, whatever follows them, the accumulator's bytes are the frame. -/
theorem accBytes_frameBits (c : Config) (frame : List Byte) (rest : List Bool) :
    accBytes c (frameBits c frame ++ rest) frame.length = frame := by
  induction frame with
  | nil => rfl
  | cons b frame ih =>
    rw [accBytes, List.length_cons, List.range_succ_eq_map, List.map_cons, List.map_map, frameBits_cons,
      List.append_assoc, accByte_zero_sent]
    refine congrArg (b :: ·) (Eq.trans (List.map_congr_left fun i _ => ?_) ih)
    exact accByte_append_succ c (sentBits_length c b) _ i

/-! ## The checksum of a sent frame -/

/-- The two bytes of the checksum field hold the checksum (30_encoding.md R58). -/
theorem highByte_append_lowByte (sum : BitVec 16) : (sum >>> 8).setWidth 8 ++ sum.setWidth 8 = sum := by
  refine BitVec.eq_of_getLsbD_eq fun i hi => ?_
  rw [BitVec.getLsbD_append]
  by_cases hlow : i < 8
  · simp [hlow]
  · have hhigh : i - 8 < 8 := by omega
    have hshift : 8 + (i - 8) = i := by omega
    simp [hlow, hhigh, hshift]

/-- A sent frame is its payload and two bytes more. -/
theorem frameOf_length (c : Config) (payload : List Byte) : (frameOf c payload).length = payload.length + 2 := by
  unfold frameOf
  rw [List.length_append]
  split <;> rfl

/-- A sent frame's checksum field holds the checksum of its payload, in both byte orders (30_encoding.md R57, R58). -/
theorem frameChecksum_frameOf {c : Config} {payload : List Byte} (h : payload.length + 2 = c.frameSize) :
    frameChecksum c (frameOf c payload) = frameField c (frameOf c payload) := by
  have hsize : c.frameSize - 2 = payload.length := by omega
  have hlast : c.frameSize - 1 = payload.length + 1 := by omega
  have hsum := highByte_append_lowByte (crc16 payload c.crc16Init)
  rw [frameChecksum, frameField, hsize, hlast]
  cases hlittle : c.crcLittleEndian <;> simp [frameOf, hlittle, hsum]

/-! ## The validator -/

/-- Without error correction, whole bytes that are a checked frame are accepted and written to `FRAME_OUT`
(44_validator.md R130, R136). -/
theorem validate_of_checked {s : State} {frame : List Byte} (hecc : s.cfg.eccEnable = false)
    (hbytes : accBytes s.cfg s.acc (s.bitIdx / 8) = frame) (hlength : frame.length = s.cfg.frameSize)
    (hsum : frameChecksum s.cfg frame = frameField s.cfg frame) :
    s.validate =
      { s with
        nbytes := frame.length, frameOut := s.frameOut.writeBytes 0 frame
        result := .frameValid, run := false } := by
  have hcheck : s.validate = s.checkFrame frame := by
    rw [State.validate, if_neg (by simp [hecc]), hbytes]
  obtain ⟨hne, -⟩ | ⟨-, hne, -⟩ | ⟨-, -, haccepted⟩ := checkFrame_cases s frame
  · exact absurd hlength hne
  · exact absurd hsum hne
  · exact hcheck.trans haccepted

/-- Settles O54: the validator's bytes are the frame, its checksum is right, and what is written to `FRAME_OUT` is read
back. -/
theorem sentFrameIsAccepted : Obligations.SentFrameIsAccepted := by
  intro s payload rest hwf hecc _ hpayload hrest frame acc t
  have hlength : frame.length = s.cfg.frameSize := (frameOf_length s.cfg payload).trans hpayload
  have hwhole : acc.length / 8 = frame.length := by
    rw [List.length_append, frameBits_length]
    omega
  have hbytes : accBytes s.cfg acc (acc.length / 8) = frame := by
    rw [hwhole]
    exact accBytes_frameBits s.cfg frame rest
  have hread : (s.frameOut.writeBytes 0 frame).readBytes s.cfg.frameSize = frame :=
    hlength ▸ Memory.readBytes_writeBytes hwf frame
  have ht : t = _ := validate_of_checked (s := { s with acc := acc, bitIdx := acc.length }) hecc hbytes hlength
    (frameChecksum_frameOf hpayload)
  rw [ht]
  exact ⟨rfl, rfl, hlength, congrArg some hread⟩

end Sys2Proof.Machine

/-! Proofs of the statements about IDLE, EXHAUST and UNPACK (40_window_unpack.md R70 to R72). -/

namespace Sys2Proof.Machine

/-- Settles O14: the byte lands in the window by the law of `winWriteBits`, which touches no other sample; the rest is
the frame of `execUnpack`. -/
theorem unpackMovesOneByteIntoTheWindow : Obligations.UnpackMovesOneByteIntoTheWindow := by
  refine ⟨selects_of_mem (by decide), fun s hraw => ?_⟩
  have written : ∀ k, k < unpackN →
      winRead (winWriteBits s.win s.wr (s.raw.read s.rawIdx) unpackN) (s.wr + BitVec.ofNat 5 k) =
        (s.raw.read s.rawIdx).getLsbD k :=
    fun _ hk => winRead_winWriteBits s.win s.wr _ le_rfl hk
  have kept : ∀ i : Cursor, (∀ k, k < unpackN → i ≠ s.wr + BitVec.ofNat 5 k) →
      winRead (winWriteBits s.win s.wr (s.raw.read s.rawIdx) unpackN) i = winRead s.win i :=
    fun i hother => winRead_winWriteBits_other s.win s.wr i _ hother
  exact ⟨_, execUnpack_next.2 ⟨hraw, rfl⟩, written, kept, rfl, rfl, rfl, fun _ => ⟨rfl, rfl⟩⟩

/-- Settles O8: a silent host leaves the step to the scheduler, and a block that does not run is scheduled IDLE. -/
theorem idleBlockStays : Obligations.IdleBlockStays := by
  intro s hc hsilent hrun
  calc step s = exec s.scheduled s.nextSlot := step_of_silent hc hsilent
    _ = exec .idle s.nextSlot := by rw [scheduled_of_idle hrun]
    _ = .next { s with inbox := s.inbox.tail } := rfl

/-- Settles O12: the pattern is a row of the map, and EXHAUST is the halt alone. -/
theorem exhaustHaltsAndKeepsTheRest : Obligations.ExhaustHaltsAndKeepsTheRest :=
  ⟨selects_of_mem (by decide), fun _ => rfl⟩

end Sys2Proof.Machine

/-! Proofs of the statements about votes, edges, PRE and DELIM (41_sync_clock.md R80 to R92), and of the two rules that
every step keeps: where STATE goes (R95) and that DATA does not write `L` (R93). -/

namespace Sys2Proof.Machine

/-! ## Votes and edges -/

/-- Settles O16: `ones` is a count of `n` conditions, and the table holds the half of `n`, rounded up. -/
theorem voteIsMajorityWithTiesUp : Obligations.VoteIsMajorityWithTiesUp := by
  intro w i n hn
  refine ⟨maj_eq hn, ?_, countBelow_le n _, rfl, rfl⟩
  rw [vote_eq hn, decide_eq_true_iff]

/-- A count of `n` conditions is full only where all of them hold. -/
theorem countBelow_eq_self_iff {n : Nat} {p : Nat → Bool} : countBelow n p = n ↔ ∀ k, k < n → p k = true := by
  refine ⟨fun hfull => ?_, countBelow_all⟩
  induction n with
  | zero => exact fun k hk => absurd hk (Nat.not_lt_zero k)
  | succ n ih =>
    have hbelow := countBelow_le n p
    have hlast := Bool.toNat_le (p n)
    simp only [countBelow] at hfull
    have hn : p n = true := Bool.toNat_eq_one.1 (by omega)
    intro k hk
    obtain hk | rfl := Nat.lt_succ_iff_lt_or_eq.1 hk
    · exact ih (by omega) k hk
    · exact hn

/-- One distance more adds one condition on each side of the edge (41_sync_clock.md R82). -/
theorem edgeScore_succ (h : Nat) (w : Window) (p : Cursor) (q : Bool) :
    edgeScore (h + 1) w p q =
      edgeScore h w p q + (winRead w (p - BitVec.ofNat 5 (h + 1)) == q).toNat +
        (winRead w (p + BitVec.ofNat 5 h) == !q).toNat := by
  simp only [edgeScore, countBelow]
  omega

theorem edgeScore_le (h : Nat) (w : Window) (p : Cursor) (q : Bool) : edgeScore h w p q ≤ 2 * h := by
  rw [two_mul]
  exact Nat.add_le_add (countBelow_le h _) (countBelow_le h _)

/-- Full on both sides: the level before the edge, the other from it on. -/
theorem edgeScore_eq_full_iff (h : Nat) (w : Window) (p : Cursor) (q : Bool) :
    edgeScore h w p q = 2 * h ↔
      ∀ k, k < h → winRead w (p - BitVec.ofNat 5 (k + 1)) = q ∧ winRead w (p + BitVec.ofNat 5 k) = !q := by
  have hbefore := countBelow_le h fun k => winRead w (p - BitVec.ofNat 5 (k + 1)) == q
  have hafter := countBelow_le h fun k => winRead w (p + BitVec.ofNat 5 k) == !q
  calc edgeScore h w p q = 2 * h
      ↔ countBelow h (fun k => winRead w (p - BitVec.ofNat 5 (k + 1)) == q) = h ∧
          countBelow h (fun k => winRead w (p + BitVec.ofNat 5 k) == !q) = h := by
        rw [edgeScore]
        omega
    _ ↔ _ := by
        simp only [countBelow_eq_self_iff, beq_iff_eq, forall_and]

/-- Of two samples of one level, exactly one is as a clean edge would have it. -/
theorem edgeScore_flat {h : Nat} {w : Window} {p : Cursor} {b : Bool} (q : Bool)
    (hflat : ∀ k, k < h → winRead w (p - BitVec.ofNat 5 (k + 1)) = b ∧ winRead w (p + BitVec.ofNat 5 k) = b) :
    edgeScore h w p q = h := by
  induction h with
  | zero => rfl
  | succ h ih =>
    obtain ⟨hbefore, hafter⟩ := hflat h (Nat.lt_succ_self h)
    have hone : (b == q).toNat + (b == !q).toNat = 1 := by cases b <;> cases q <;> rfl
    rw [edgeScore_succ, ih fun k hk => hflat k (hk.trans (Nat.lt_succ_self h)), hbefore, hafter, add_assoc, hone]

/-- Settles O17: each condition counts 1 where its sample has the level asked for; the rest are the lemmas above. -/
theorem edgeScoreIsFullExactlyAtCleanEdge : Obligations.EdgeScoreIsFullExactlyAtCleanEdge := by
  intro h w p q
  have condition (x y : Bool) : (x == y).toNat = if x = y then 1 else 0 := by cases x <;> cases y <;> rfl
  refine ⟨rfl, ?_, edgeScore_le h w p q, edgeScore_eq_full_iff h w p q, fun b => edgeScore_flat q⟩
  rw [edgeScore_succ, condition, condition]

/-- `best` is the earliest of the best candidates among the offsets from -2 to `n`. -/
structure BestUpTo (score : Int → Nat) (n : Int) (best : Int × Nat) : Prop where
  low : -2 ≤ best.1
  high : best.1 ≤ n
  score_eq : best.2 = score best.1
  most : ∀ o, -2 ≤ o → o ≤ n → score o ≤ best.2
  earliest : ∀ o, -2 ≤ o → o < best.1 → score o < best.2

theorem bestUpTo_first (score : Int → Nat) : BestUpTo score (-2) (-2, score (-2)) where
  low := le_rfl
  high := le_rfl
  score_eq := rfl
  most o hlow hhigh := by rw [le_antisymm hhigh hlow]
  earliest o hlow hbefore := absurd hlow (not_le.2 hbefore)

/-- A turn of the search over the next offset: the candidate takes over only with a strictly greater score, so a tie
goes to the earlier (41_sync_clock.md R83). -/
theorem BestUpTo.betterEdge {h : Nat} {w : Window} {base : Cursor} {q : Bool} {n : Int} {best : Int × Nat}
    (hbest : BestUpTo (scoreAt h w base q) n best) :
    BestUpTo (scoreAt h w base q) (n + 1) (betterEdge h w base q best (n + 1)) := by
  obtain ⟨hlow, hhigh, hscore, hmost, hearliest⟩ := hbest
  have upTo {o : Int} (ho : o ≤ n + 1) : o ≤ n ∨ o = n + 1 := by omega
  obtain ⟨hmore, heq⟩ | ⟨hless, heq⟩ := betterEdge_cases h w base q best (n + 1) <;> rw [heq]
  · refine ⟨by simp only; omega, le_rfl, rfl, fun o ho hon => ?_, fun o ho hon => ?_⟩
    · obtain hon | rfl := upTo hon
      · exact (hmost o ho hon).trans hmore.le
      · exact le_rfl
    · exact (hmost o ho (Int.lt_add_one_iff.1 hon)).trans_lt hmore
  · refine ⟨hlow, by omega, hscore, fun o ho hon => ?_, hearliest⟩
    obtain hon | rfl := upTo hon
    · exact hmost o ho hon
    · exact hless

/-- The search starts at the offset -2 and takes its four turns at -1, 0, 1 and 2. -/
theorem bestEdge_bestUpTo (h : Nat) (w : Window) (base : Cursor) (q : Bool) :
    BestUpTo (scoreAt h w base q) 2 (bestEdge h w base q) :=
  (bestUpTo_first _).betterEdge.betterEdge.betterEdge.betterEdge

/-- Settles O18: the four turns of the search, and the samples that the scores read. -/
theorem bestEdgeIsEarliestOfTheBest : Obligations.BestEdgeIsEarliestOfTheBest := by
  intro h w base q best score
  obtain ⟨hlow, hhigh, hscore, hmost, hearliest⟩ := bestEdge_bestUpTo h w base q
  exact ⟨⟨hlow, hhigh⟩, hscore, fun o ho hon => ⟨hmost o ho hon, hearliest o ho⟩, fun w' => bestEdge_congr q⟩

/-! ## PRE and DELIM -/

/-- Settles O19: the vote at `rd` over `L` samples decides. -/
theorem preVotesOneBitPeriod : Obligations.PreVotesOneBitPeriod := by
  refine ⟨selects_of_mem (by decide), fun s hmay => execPre_next.2 ⟨hmay, ?_⟩⟩
  rw [vote_eq hmay.2.1]
  simp only [decide_eq_true_iff]
  rfl

/-- How a counted edge ends: below the delimiter length the count stands; at the last edge the length measured is
refused, or the frame's DATA begins with it (41_sync_clock.md R88 to R92). -/
theorem countEdge_takeEdge (s : State) (o : Int) :
    let newL := measuredLength s.cfg (s.takeEdge o).rd s.delimStart
    (s.takeEdge o).countEdge =
      if (s.cnt + 1).toNat ≠ s.cfg.delimLen then s.countedEdge o
      else if newL < 1 ∨ 10 < newL then (s.countedEdge o).halt .abortBadDelimiter
      else (s.countedEdge o).enterData newL := by
  intro newL
  obtain ⟨hcnt, h⟩ | ⟨hcnt, h⟩ := countEdge_cases (s.takeEdge o) <;> rw [h]
  · exact (if_pos hcnt).symm
  · have hlast : ¬ (s.cnt + 1).toNat ≠ s.cfg.delimLen := not_not.2 hcnt
    rw [if_neg hlast]
    rfl

/-- Settles O20: the scorer's answer decides between hunt, abort, lock and counted edge; the count and the measured
length decide how a counted edge ends. -/
theorem delimFollowsTheScorer : Obligations.DelimFollowsTheScorer := by
  refine ⟨selects_of_mem (by decide), fun s hmay hahead => ?_⟩
  intro edge rd apparent newL
  refine execDelim_next.2 ⟨hmay, hahead, ?_⟩
  change _ = s.delimStep edge
  obtain ⟨hscore, hlocked, h⟩ | ⟨hscore, hlocked, h⟩ | ⟨hscore, hlocked, h⟩ | ⟨hscore, hlocked, h⟩ :=
    delimStep_cases s edge <;> rw [h]
  · rw [if_pos hscore, if_neg (by simp [hlocked])]
  · rw [if_pos hscore, if_pos hlocked]
    rfl
  · rw [if_neg (not_lt.2 hscore), if_pos hlocked]
    rfl
  · rw [if_neg (not_lt.2 hscore), if_neg (by simp [hlocked]), countEdge_takeEdge]
    rfl

/-! ## STATE and `L` -/

@[simp] theorem validate_st (s : State) : s.validate.st = s.st := (congrArg State.st (validate_frame s) :)
@[simp] theorem validate_len (s : State) : s.validate.len = s.len := (congrArg State.len (validate_frame s) :)
@[simp] theorem assemble_st (s : State) (a : Assembled) : (s.assemble a).st = s.st :=
  (congrArg State.st (assemble_frame s a) :)
@[simp] theorem assemble_len (s : State) (a : Assembled) : (s.assemble a).len = s.len :=
  (congrArg State.len (assemble_frame s a) :)

theorem DataStep.st_eq {s t : State} {rd : Cursor} {ov : Bool} {a : Assembled} (h : DataStep s rd ov a t) :
    t.st = s.st := by
  obtain rfl | ⟨rfl, -⟩ := h.outcome <;> simp

theorem DataStep.len_eq {s t : State} {rd : Cursor} {ov : Bool} {a : Assembled} (h : DataStep s rd ov a t) :
    t.len = s.len := by
  obtain rfl | ⟨rfl, -⟩ := h.outcome <;> simp

/-- Where the block's own steps take STATE (41_sync_clock.md R95): nowhere, or on by the PRE hit or the finalize. -/
inductive Advance : SyncState → SyncState → Prop where
  | stay (st : SyncState) : Advance st st
  | hit : Advance .preamble .delimiter
  | finalize : Advance .delimiter .data

theorem Advance.of_eq {a b : SyncState} (h : b = a) : Advance a b :=
  h ▸ .stay a

theorem Advance.code {a b : SyncState} (h : Advance a b) :
    (syncCode a).toNat ≤ (syncCode b).toNat ∧ (syncCode b).toNat ≤ (syncCode a).toNat + 1 := by
  cases h with
  | stay => exact ⟨le_rfl, Nat.le_succ _⟩
  | hit | finalize => decide

/-- No step of the block enters the reserved STATE or PREAMBLE. -/
theorem Advance.from_of_end {a b : SyncState} (h : Advance a b) (hb : b = .reserved ∨ b = .preamble) : a = b := by
  cases h with
  | stay => rfl
  | hit | finalize => simp at hb

theorem DelimStep.advance {s t : State} {o : Int} (h : DelimStep s o t) (hst : s.st = .delimiter) :
    Advance s.st t.st := by
  cases h with
  | hunt | lost | lock | edge | badLength => exact .stay _
  | enterData => rw [hst]; exact .finalize

theorem BlockStep.advance {s t : State} (h : BlockStep s t) : Advance s.st t.st := by
  cases h with
  | idle | exhaust | unpack | preMiss | illegal => exact .stay _
  | preHit _ _ hst => rw [hst]; exact .hit
  | delim _ _ _ hst _ _ _ hdelim => exact hdelim.advance hst
  | nrz _ _ _ _ _ _ _ _ hdata => exact .of_eq hdata.st_eq
  | man _ _ _ _ _ _ _ _ _ hdata => exact .of_eq hdata.st_eq
  | manOver => exact .of_eq (by simp)

/-- `L` is written by the finalize alone, so not in DATA (41_sync_clock.md R93). -/
theorem BlockStep.len_eq {s t : State} (h : BlockStep s t) (hst : s.st = .data) : t.len = s.len := by
  cases h with
  | idle | exhaust | unpack | illegal => rfl
  | preHit _ _ hother | preMiss _ _ hother | delim _ _ _ hother => simp [hst] at hother
  | nrz _ _ _ _ _ _ _ _ hdata => exact hdata.len_eq
  | man _ _ _ _ _ _ _ _ _ hdata => exact hdata.len_eq
  | manOver => simp

/-- Settles O46: the block's own steps only advance STATE; of the commands RESET ends the decode, START needs that none
is in flight, and the others leave STATE. -/
theorem stateMovesForwardOnly : Obligations.StateMovesForwardOnly := by
  intro s t hstep
  obtain ⟨-, hblock⟩ | ⟨i, hissues, hcommand⟩ := step_cases hstep
  · have hadvance : Advance s.st t.st := hblock.advance
    exact ⟨fun _ _ => hadvance.code, fun ht => (hadvance.from_of_end (.inl ht)).trans ht,
      fun ht => .inl ((hadvance.from_of_end (.inr ht)).trans ht)⟩
  · cases hcommand with
    | unchanged | gate | capture => exact ⟨fun _ _ => (Advance.stay s.st).code, id, .inl⟩
    | reset hreset => exact ⟨nofun, nofun, fun _ => .inr (.inr (hreset ▸ hissues))⟩
    | start hstart hidle =>
      exact ⟨fun hrun => absurd hrun (Bool.eq_false_iff.1 hidle), nofun, fun _ => .inr (.inl (hstart ▸ hissues))⟩

/-- Settles O47: the block's own steps in DATA leave `L`, and of the commands only RESET and START write it, which leave
DATA. -/
theorem bitLengthIsFixedInData : Obligations.BitLengthIsFixedInData := by
  intro s t hstep hs ht
  obtain ⟨-, hblock⟩ | ⟨i, -, hcommand⟩ := step_cases hstep
  · exact hblock.len_eq hs
  · cases hcommand with
    | unchanged | gate | capture => rfl
    | reset => cases ht
    | start => cases ht

end Sys2Proof.Machine

/-! Proofs of the statements about the bit decoders (42_decoders.md R100 to R107): what the assembler, the hand-off and
the cursors come to, each as one equation, then the two DATA steps and what they do with a clean bit. -/

namespace Sys2Proof.Machine

/-! ## The assembler and the hand-off -/

/-- The NRZ assembler in one line: a stuffed 1 and the 0 that ends the frame are not stored (43_assembler.md R121). -/
theorem asmNrz_eq (c : Config) (zeroRun : BitVec 3) (v : Bool) :
    let stuffed := v = true ∧ c.stuffThresh ≤ zeroRun.toNat
    let eof := v = false ∧ 5 ≤ (zeroRun + 1).toNat
    asmNrz c zeroRun v =
      ⟨if stuffed ∨ eof then none else some v, if v then 0 else zeroRun + 1, decide eof⟩ := by
  obtain ⟨rfl, h, heq⟩ | ⟨rfl, h, heq⟩ | ⟨rfl, h, heq⟩ | ⟨rfl, h, heq⟩ := asmNrz_cases c zeroRun v <;> rw [heq]
  · simpa using h
  · simpa using h
  · simpa using h
  · simpa using h

/-- Where `skip` says so the assembler drops the bit, else it stores it (43_assembler.md R120). -/
theorem assemble_unless (s : State) (skip : Prop) [Decidable skip] (b : Bool) (zeroRun : BitVec 3) (eof : Bool) :
    s.assemble ⟨if skip then none else some b, zeroRun, eof⟩ =
      if skip then { s with zeroRun := zeroRun }
      else { s with zeroRun := zeroRun, acc := s.acc.set s.bitIdx b, bitIdx := s.bitIdx + 1 } := by
  split <;> rfl

/-- The validator runs at the end of the frame and on a full accumulator (43_assembler.md R123). -/
theorem handOff_eq (s : State) (eof : Bool) :
    s.handOff eof = if eof = true ∨ s.cfg.maxBits ≤ s.bitIdx then s.validate else s := by
  obtain ⟨h, heq⟩ | ⟨heof, hidx, heq⟩ := handOff_cases s eof <;> rw [heq]
  · rw [if_pos h]
  · rw [if_neg (by simp [heof, hidx])]

/-! ## The cursor and the samples -/

/-- The resync of R102 by the lookahead's first sample and the one just past the bit. -/
theorem nrzCursor_eq (s : State) (v : Bool) :
    s.nrzCursor v =
      s.rd + BitVec.ofNat 5 s.bitLen + if s.ahead 0 = v then 0 else if s.ahead s.bitLen ≠ v then -1 else 1 := by
  have hfirst : winRead s.win s.rd = s.ahead 0 := by simp [State.ahead]
  have hpast : winRead s.win (s.rd + BitVec.ofNat 5 s.bitLen) = s.ahead s.bitLen := rfl
  rw [State.nrzCursor, hfirst, hpast, nrzAdjust, apply_ite (BitVec.ofInt 5), apply_ite (BitVec.ofInt 5)]
  rfl

/-- Samples of one level are all ones or none. -/
theorem ones_of_level {w : Window} {i : Cursor} {n : Nat} {b : Bool}
    (h : ∀ k, k < n → winRead w (i + BitVec.ofNat 5 k) = b) : ones w i n = if b then n else 0 := by
  cases b with
  | true => exact countBelow_all h
  | false => exact countBelow_none h

/-! ## DATA_NRZ -/

/-- Settles O23: the vote decides the bit, the assembler drops a stuffed 1 and the last 0, and the hand-off is the
validator's condition. -/
theorem dataNrzDecidesResyncsAndAssembles : Obligations.DataNrzDecidesResyncsAndAssembles := by
  refine ⟨selects_of_mem (by decide), fun s hmay => ?_⟩
  intro v first past adj rd stuffed eof zeroRun t hroom
  have hvote : vote s.win s.rd s.bitLen = v := vote_eq hmay.2.1 s.win s.rd
  have hcursor : s.nrzCursor v = rd := nrzCursor_eq s v
  have hasm : asmNrz s.cfg s.zeroRun v = ⟨if stuffed ∨ eof then none else some v, zeroRun, decide eof⟩ :=
    asmNrz_eq s.cfg s.zeroRun v
  have hassemble : ({ s with rd := rd } : State).assemble (asmNrz s.cfg s.zeroRun v) = t := by
    rw [hasm, assemble_unless]
  have hcfg : t.cfg = s.cfg := by rw [← hassemble, assemble_cfg]
  refine execDataNrz_next.2 ⟨hmay, ?_⟩
  simp only [hvote, hcursor, hassemble]
  refine ⟨hroom.imp_right fun hlast => ⟨hlast.1, ?_⟩, ?_⟩
  · simp only [hasm, if_pos hlast.2]
  · rw [hasm, handOff_eq, hcfg]
    simp only [decide_eq_true_iff]

/-- A clean NRZ symbol wins its vote: all its samples are ones, or none is (42_decoders.md R101). -/
theorem majority_of_level {s : State} {b : Bool} (hpos : 1 ≤ s.bitLen) (h : ∀ k, k < s.bitLen → s.ahead k = b) :
    decide (s.bitLen ≤ 2 * ones s.win s.rd s.bitLen) = b := by
  rw [ones_of_level h]
  cases b with
  | true => exact decide_eq_true (by simp; omega)
  | false => exact decide_eq_false (by simp; omega)

/-- Settles O25: the vote is the symbol's level, which is also the first sample's, so nothing is adjusted. -/
theorem cleanNrzSymbolIsStoredWithoutResync : Obligations.CleanNrzSymbolIsStoredWithoutResync := by
  intro s b hmay hidx hclean hstuffed heof
  have hvote := majority_of_level hmay.1 hclean
  have hfirst : s.ahead 0 = b := hclean 0 hmay.1
  have hkept : ¬ (b = true ∧ s.cfg.stuffThresh ≤ s.zeroRun.toNat) := fun ⟨hb, hle⟩ => not_lt.2 hle (hstuffed hb)
  have hopen : ¬ (b = false ∧ 5 ≤ (s.zeroRun + 1).toNat) := fun ⟨hb, hle⟩ => not_lt.2 hle (heof hb)
  have hnrz := dataNrzDecidesResyncsAndAssembles.2 s hmay (.inl (by omega))
  simpa only [hvote, hfirst, hkept, hopen, or_self, false_or, if_true, if_false, add_zero, if_neg (not_le.2 hidx)]
    using hnrz

/-! ## DATA_MAN -/

/-- Settles O24: the two groups' counts decide between the end marker, which stores nothing and leaves `rd`, and a bit,
which moves the cursor by the edge found. -/
theorem dataManComparesHalvesAndAssembles : Obligations.DataManComparesHalvesAndAssembles := by
  refine ⟨selects_of_mem (by decide), fun s hmay => ?_⟩
  intro a b v silent edge t
  have hover : overFlag s.groupA s.groupB = true ↔ silent := overFlag_iff s.groupA s.groupB
  refine ⟨fun hsilent hidx => execDataMan_next.2 ⟨hmay, ?_⟩, fun hsilent hidx hahead => execDataMan_next.2 ⟨hmay, ?_⟩⟩
  · simp only [hover.2 hsilent, asmMan_over]
    exact ⟨hidx.lt_or_eq.imp_right fun hfull => ⟨hfull, trivial⟩, .inl ⟨trivial, rfl⟩⟩
  · have hbit : overFlag s.groupA s.groupB = false := Bool.eq_false_iff.2 (mt hover.1 hsilent)
    simp only [hbit, asmMan_bit]
    refine ⟨.inl hidx, .inr ⟨trivial, hahead, ?_⟩⟩
    rw [handOff_eq]
    simp only [Bool.false_eq_true, false_or]
    rfl

/-- The samples of the second half-bit group are those `L` further ahead (42_decoders.md R105). -/
theorem winRead_secondGroup (s : State) (k : Nat) :
    winRead s.win (s.rd + BitVec.ofNat 5 s.bitLen + BitVec.ofNat 5 k) = s.ahead (s.bitLen + k) := by
  rw [State.ahead, BitVec.ofNat_add, add_assoc]

/-- Settles O26: the counts are 6 and 0 or 0 and 6, which is no silence, and the first is greater just for a 1. -/
theorem cleanManchesterBitNeverEndsTheFrame : Obligations.CleanManchesterBitNeverEndsTheFrame := by
  intro s q hmay hahead hidx hclean
  have hfirst : ones s.win s.rd 6 = if q then 6 else 0 := ones_of_level fun k hk => (hclean k hk).1
  have hsecond : ones s.win (s.rd + BitVec.ofNat 5 s.bitLen) 6 = if !q then 6 else 0 :=
    ones_of_level fun k hk => (winRead_secondGroup s k).trans (hclean k hk).2
  have hbit := (dataManComparesHalvesAndAssembles.2 s hmay).2
  rw [hfirst, hsecond] at hbit
  have hlevel : decide ((if !q then 6 else 0) < if q then 6 else 0) = q := by cases q <;> rfl
  have hloud := hbit (by cases q <;> simp) (by omega) hahead
  rw [hlevel, if_neg (not_le.2 hidx)] at hloud
  exact ⟨_, hloud⟩

end Sys2Proof.Machine

/-! Proofs of the statements about the validator and its checksum (44_validator.md R130 to R140): the byte-wise and the
bit-wise form agree, so adding a byte loses nothing, and a changed byte of a frame always shows in the comparison. -/

namespace Sys2Proof.Machine

/-! ## The bit-serial register -/

/-- One turn of the register (44_validator.md R140): shift right, fold the lost bit back into bits 15, 10 and 3. -/
def crcTurn (x : BitVec 16) : BitVec 16 :=
  if x.getLsbD 0 then (x >>> 1) ^^^ 0x8408 else x >>> 1

theorem crcShift_eq_iterate (n : Nat) (x : BitVec 16) : crcShift n x = crcTurn^[n] x := by
  induction n generalizing x with
  | zero => rfl
  | succ n ih => exact ih (crcTurn x)

/-- Bit `i` after a turn is the bit above it, flipped by the lost bit where the polynomial has a 1. -/
theorem crcTurn_getLsbD (x : BitVec 16) (i : Nat) :
    (crcTurn x).getLsbD i = (x.getLsbD (i + 1) ^^ (x.getLsbD 0 && (0x8408#16).getLsbD i)) := by
  unfold crcTurn
  cases x.getLsbD 0 <;> simp [Nat.add_comm]

/-- A turn loses nothing: bit 15 of the result is the bit shifted out. -/
theorem crcTurn_injective : Function.Injective crcTurn := by
  intro x y h
  have hbit (i : Nat) := (crcTurn_getLsbD x i).symm.trans ((congrArg (·.getLsbD i) h).trans (crcTurn_getLsbD y i))
  have hlost : x.getLsbD 0 = y.getLsbD 0 := by simpa using hbit 15
  refine BitVec.eq_of_getLsbD_eq fun i _ => ?_
  cases i with
  | zero => exact hlost
  | succ i => exact Bool.xor_left_inj.1 (hlost ▸ hbit i)

theorem crcShift_injective (n : Nat) : Function.Injective (crcShift n) := by
  rw [funext (crcShift_eq_iterate n)]
  exact crcTurn_injective.iterate n

/-- The corrections after the byte swap come to eight turns (44_validator.md R140): bit by bit, the two sides are the
same sum of bits of `x`. -/
theorem crcFold_swap_eq_crcShift (x : BitVec 16) : crcFold ((x >>> 8) ||| (x <<< 8)) = crcShift 8 x := by
  rw [crcShift_eq_iterate]
  refine BitVec.eq_of_getLsbD_eq fun i hi => ?_
  simp only [Function.iterate_succ, Function.iterate_zero, Function.comp_apply, id, crcTurn_getLsbD]
  interval_cases i <;> simp [crcFold, Bool.xor_comm, Bool.xor_left_comm]

theorem crc16Add_eq_serial (acc : BitVec 16) (b : Byte) : crc16Add acc b = crc16AddSerial acc b :=
  crcFold_swap_eq_crcShift _

/-- Settles O31: the two forms agree on every accumulator and byte, and nine bytes are nine such additions. -/
theorem crcFormsAgree : Obligations.CrcFormsAgree :=
  ⟨crc16Add_eq_serial, by decide⟩

/-! ## A changed byte changes the checksum -/

/-- Two accumulators stay apart when the same byte is added. -/
theorem crc16Add_injective_acc (b : Byte) : Function.Injective (crc16Add · b) := by
  intro acc acc' h
  simp only [crc16Add_eq_serial] at h
  exact (BitVec.xor_left_inj _).1 (crcShift_injective 8 h)

/-- Two bytes take one accumulator apart. -/
theorem crc16Add_injective_byte (acc : BitVec 16) : Function.Injective (crc16Add acc) := by
  intro b b' h
  simp only [crc16Add_eq_serial] at h
  have hwide : b.setWidth 16 = b'.setWidth 16 := (BitVec.xor_right_inj _).1 (crcShift_injective 8 h)
  simpa using congrArg (BitVec.setWidth 8) hwide

theorem crc16_injective_init (bytes : List Byte) : Function.Injective (crc16 bytes) := by
  induction bytes with
  | nil => exact Function.injective_id
  | cons c bytes ih => exact ih.comp (crc16Add_injective_acc c)

/-- The accumulator is taken apart at the changed byte and stays so over the rest. -/
theorem crc16_set_ne {bytes : List Byte} {i : Nat} {b : Byte} (init : BitVec 16) (hi : i < bytes.length)
    (hb : b ≠ bytes.getD i 0) : crc16 (bytes.set i b) init ≠ crc16 bytes init := by
  induction bytes generalizing i init with
  | nil => simp at hi
  | cons c bytes ih =>
    cases i with
    | zero => exact fun h => hb (crc16Add_injective_byte init (crc16_injective_init bytes h))
    | succ i => exact ih (crc16Add init c) (Nat.lt_of_succ_lt_succ hi) hb

/-! ## A changed byte breaks the match of checksum and field -/

theorem getD_set_self {bytes : List Byte} {i : Nat} (b : Byte) (hi : i < bytes.length) :
    (bytes.set i b).getD i 0 = b := by
  simp [hi]

theorem getD_set_ne {bytes : List Byte} {i j : Nat} (b : Byte) (hij : i ≠ j) :
    (bytes.set i b).getD j 0 = bytes.getD j 0 := by
  simp [List.getElem?_set_ne hij]

theorem byte_append_inj {a b a' b' : Byte} : a ++ b = a' ++ b' ↔ a = a' ∧ b = b' := by
  refine ⟨fun h => ?_, fun ⟨ha, hb⟩ => by rw [ha, hb]⟩
  have hlow : b = b' := by
    rw [← BitVec.setWidth_append_eq_right (a := a) (b := b), h, BitVec.setWidth_append_eq_right]
  subst hlow
  exact ⟨(BitVec.append_left_inj b).1 h, rfl⟩

/-- In both byte orders the field tells its two bytes (30_encoding.md R58). -/
theorem frameField_eq_iff (c : Config) (frame frame' : List Byte) :
    frameField c frame = frameField c frame' ↔
      frame.getD (c.frameSize - 2) 0 = frame'.getD (c.frameSize - 2) 0 ∧
        frame.getD (c.frameSize - 1) 0 = frame'.getD (c.frameSize - 1) 0 := by
  unfold frameField
  cases c.crcLittleEndian
  · exact byte_append_inj
  · exact byte_append_inj.trans and_comm

/-- One byte of a checked frame changed, in the payload or in the field, and the two no longer match (44_validator.md
R135): only one side of the comparison sees the change. -/
theorem frameChecksum_set_ne_frameField {c : Config} {frame : List Byte} {i : Nat} {b : Byte}
    (hsize : 2 ≤ c.frameSize) (hlength : frame.length = c.frameSize)
    (hsum : frameChecksum c frame = frameField c frame) (hi : i < c.frameSize) (hb : b ≠ frame.getD i 0) :
    frameChecksum c (frame.set i b) ≠ frameField c (frame.set i b) := by
  by_cases hpayload : i < c.frameSize - 2
  · have hfield : frameField c (frame.set i b) = frameField c frame :=
      (frameField_eq_iff c _ _).2 ⟨getD_set_ne b (by omega), getD_set_ne b (by omega)⟩
    have hbyte : (frame.take (c.frameSize - 2)).getD i 0 = frame.getD i 0 := by simp [hpayload]
    rw [hfield, ← hsum, frameChecksum, List.take_set]
    exact crc16_set_ne c.crc16Init (by simp; omega) (hbyte ▸ hb)
  · have hkept : frameChecksum c (frame.set i b) = frameChecksum c frame := by
      rw [frameChecksum, frameChecksum, List.take_set_of_le (by omega)]
    rw [hkept, hsum]
    intro hfield
    obtain ⟨hfirst, hsecond⟩ := (frameField_eq_iff c _ _).1 hfield
    have hsame : frame.getD i 0 = (frame.set i b).getD i 0 := by
      obtain rfl | rfl : i = c.frameSize - 2 ∨ i = c.frameSize - 1 := by omega
      · exact hfirst
      · exact hsecond
    exact hb (hsame.trans (getD_set_self b (hlength ▸ hi))).symm

/-- A flipped bit changes the byte. -/
theorem flip_ne (b : Byte) {k : Nat} (hk : k < 8) : b ^^^ (1#8 <<< k) ≠ b := by
  have hbit : 1#8 <<< k ≠ 0#8 := by interval_cases k <;> decide
  exact fun h => hbit ((BitVec.xor_right_inj b).1 (h.trans BitVec.xor_zero.symm))

/-! ## The checks -/

theorem checkFrame_of_checksum_ne {s : State} {frame : List Byte} (hlength : frame.length = s.cfg.frameSize)
    (hsum : frameChecksum s.cfg frame ≠ frameField s.cfg frame) :
    s.checkFrame frame = { s with nbytes := frame.length, result := .rejectChecksum, run := false } :=
  (if_neg (not_not.2 hlength)).trans (if_pos hsum)

theorem checkFrame_of_checked {s : State} {frame : List Byte} (hlength : frame.length = s.cfg.frameSize)
    (hsum : frameChecksum s.cfg frame = frameField s.cfg frame) :
    s.checkFrame frame =
      { s with
        nbytes := frame.length, frameOut := s.frameOut.writeBytes 0 frame
        result := .frameValid, run := false } :=
  (if_neg (not_not.2 hlength)).trans (if_neg (not_not.2 hsum))

/-- Settles O32: the flip changes one byte, so checksum and field no longer match, and the length is the same. -/
theorem singleBitFlipIsRejected : Obligations.SingleBitFlipIsRejected := by
  intro s frame i k hsize hlength hsum hi hk flipped
  have hflipped : flipped.length = s.cfg.frameSize := List.length_set.trans hlength
  have hbroken : frameChecksum s.cfg flipped ≠ frameField s.cfg flipped :=
    frameChecksum_set_ne_frameField (by omega) hlength hsum hi (flip_ne _ hk)
  refine ⟨by rw [checkFrame_of_checked hlength hsum], ?_⟩
  rw [checkFrame_of_checksum_ne hflipped hbroken, hflipped]

/-- The byte list that the checks are made on, where there is one: the whole bytes of `ACC`, through error correction if
configured (44_validator.md R131, R132). -/
def State.decodedFrame (s : State) : Option (List Byte) :=
  let whole := accBytes s.cfg s.acc (s.bitIdx / 8)
  if s.cfg.eccEnable then Config.eccDecode whole else some whole

theorem validate_of_undecoded {s : State} (h : s.decodedFrame = none) :
    s.validate = { s with nbytes := s.bitIdx / 8, result := .rejectEcc, run := false } := by
  unfold State.decodedFrame at h
  unfold State.validate
  split at h
  · rw [if_pos ‹_›, h]
    rfl
  · cases h

theorem validate_of_decoded {s : State} {frame : List Byte} (h : s.decodedFrame = some frame) :
    s.validate = s.checkFrame frame := by
  unfold State.decodedFrame at h
  unfold State.validate
  split at h
  · rw [if_pos ‹_›, h]
  · rw [if_neg ‹_›, Option.some.inj h]

/-- Settles O29: error correction gives no byte list, or one on which the length and then the checksum decide. -/
theorem validateChecksInOrder : Obligations.ValidateChecksInOrder := by
  intro s hwf whole decoded
  have hdecoded : s.decodedFrame = decoded := rfl
  clear_value decoded
  cases decoded with
  | none => exact validate_of_undecoded hdecoded
  | some frame =>
    rw [validate_of_decoded hdecoded]
    dsimp only
    obtain ⟨hlength, heq⟩ | ⟨hlength, hsum, heq⟩ | ⟨hlength, hsum, heq⟩ := checkFrame_cases s frame
    · exact (if_pos hlength).mpr heq
    · exact (if_neg (not_not.2 hlength)).mpr ((if_pos hsum).mpr heq)
    · refine (if_neg (not_not.2 hlength)).mpr ((if_neg (not_not.2 hsum)).mpr ?_)
      rw [heq]
      refine ⟨fun i hi => ?_, fun i hi => ?_, rfl⟩
      · have hread := Memory.read_writeBytes hwf frame (a := 0) (hlength.symm ▸ hi)
        rwa [Nat.zero_add] at hread
      · exact Memory.read_writeBytes_other _ _ (.inr (by omega))

/-! ## What FRAME_VALID means -/

/-- Where `t` reports FRAME_VALID, the host reads a frame that passes the checks of a block with parameters `c`. -/
def ReportsCheckedFrame (c : Config) (t : State) : Prop :=
  t.result = .frameValid →
    ∃ frame, t.frameRead = some frame ∧ frame.length = c.frameSize ∧
      frameChecksum c frame = frameField c frame ∧ t.nbytes = c.frameSize

/-- The validator reports only what it has checked and written to `FRAME_OUT` (44_validator.md R136). -/
theorem validate_reportsCheckedFrame {s : State} (hwf : s.frameOut.wf) : ReportsCheckedFrame s.cfg s.validate := by
  intro hvalid
  obtain ⟨n, r, hr, h⟩ | ⟨frame, hlength, hsum, h⟩ := validate_cases s <;> rw [h] at hvalid ⊢
  · simp only at hvalid
    simp [hvalid] at hr
  · have hread : (s.frameOut.writeBytes 0 frame).readBytes s.cfg.frameSize = frame :=
      hlength ▸ Memory.readBytes_writeBytes hwf frame
    exact ⟨frame, congrArg some hread, hlength, hsum, hlength⟩

theorem reportsCheckedFrame_of_ne {c : Config} {t : State} (h : t.result ≠ .frameValid) : ReportsCheckedFrame c t :=
  fun hvalid => absurd hvalid h

theorem DelimStep.result_ne {s t : State} {o : Int} (h : DelimStep s o t) (hres : s.result ≠ .frameValid) :
    t.result ≠ .frameValid := by
  cases h with
  | hunt | lock | edge | enterData => exact hres
  | lost | badLength => exact nofun

theorem DataStep.reportsCheckedFrame {s t : State} {rd : Cursor} {ov : Bool} {a : Assembled} (h : DataStep s rd ov a t)
    (hwf : s.frameOut.wf) (hres : s.result ≠ .frameValid) : ReportsCheckedFrame s.cfg t := by
  obtain rfl | ⟨rfl, -⟩ := h.outcome
  · have hreport := validate_reportsCheckedFrame (s := ({ s with rd := rd, manOver := ov } : State).assemble a)
      (by simpa using hwf)
    rwa [assemble_cfg] at hreport
  · refine reportsCheckedFrame_of_ne ?_
    rw [assemble_frame]
    exact hres

/-- A step of the block comes to FRAME_VALID only through the validator. -/
theorem BlockStep.reportsCheckedFrame {s t : State} (h : BlockStep s t) (hwf : s.frameOut.wf)
    (hres : s.result ≠ .frameValid) : ReportsCheckedFrame s.cfg t := by
  cases h with
  | idle | unpack | preHit | preMiss => exact reportsCheckedFrame_of_ne hres
  | exhaust | illegal => exact reportsCheckedFrame_of_ne nofun
  | delim _ _ _ _ _ _ _ hdelim => exact reportsCheckedFrame_of_ne (hdelim.result_ne hres)
  | nrz _ _ _ _ _ _ _ _ hdata => exact hdata.reportsCheckedFrame hwf hres
  | man _ _ _ _ _ _ _ _ _ hdata => exact hdata.reportsCheckedFrame hwf hres
  | manOver => exact validate_reportsCheckedFrame (s := { s with manOver := true }) hwf

/-- Settles O33: a step of the block reports a checked frame, and no command of the host writes FRAME_VALID. -/
theorem frameValidMeansCheckedFrame : Obligations.FrameValidMeansCheckedFrame := by
  intro s t hwf _ hres hstep
  obtain ⟨-, hblock⟩ | ⟨i, -, hcommand⟩ := step_cases hstep
  · exact hblock.reportsCheckedFrame hwf hres
  · cases hcommand with
    | unchanged | gate | capture => exact reportsCheckedFrame_of_ne hres
    | reset | start => exact reportsCheckedFrame_of_ne nofun

end Sys2Proof.Machine

/-! Proofs of the statements about the host's commands (45_host_ops.md R150 to R157): each command where it is legal and
where it is not, one equation each, then the statements. -/

namespace Sys2Proof.Machine

/-! ## The word of the step -/

/-- Settles O6: the fetched word is the host's command or the dispatch word, and the step runs what it decodes to. -/
theorem stepRunsDecodedInstruction : Obligations.StepRunsDecodedInstruction := by
  intro s i hc ⟨hdecode, hwf⟩
  refine ⟨?_, fun w hw => fetch_of_command hw, fetch_of_silent⟩
  rw [step, if_pos hc, hdecode]
  exact if_pos hwf

/-! ## When a command is legal -/

theorem captureLegal_iff (s : State) : s.captureLegal = true ↔ s.run = false ∧ s.gateCnt = s.cfg.rssiHold := by
  simp [State.captureLegal, State.gateOpen]

theorem startLegal_iff (s : State) : s.startLegal = true ↔ s.run = false ∧ s.rawLoaded = true := by
  simp [State.startLegal]

/-! ## GATE -/

theorem execGate_of_idle {s : State} (rssi : Nat) (hrun : s.run = false) :
    execGate rssi s = .next { s with gateCnt := gateCount s.cfg s.gateCnt rssi } :=
  if_pos (by simp [State.gateLegal, hrun])

theorem execGate_of_running {s : State} (rssi : Nat) (hrun : s.run = true) : execGate rssi s = .next s :=
  if_neg (by simp [State.gateLegal, hrun])

theorem gateCount_of_above {c : Config} {gateCnt rssi : Nat} (habove : c.rssiThresh < rssi)
    (hclosed : gateCnt < c.rssiHold) : gateCount c gateCnt rssi = gateCnt + 1 :=
  (if_pos habove).trans (if_pos hclosed)

theorem gateCount_of_saturated {c : Config} {gateCnt rssi : Nat} (habove : c.rssiThresh < rssi)
    (hopen : c.rssiHold ≤ gateCnt) : gateCount c gateCnt rssi = gateCnt :=
  (if_pos habove).trans (if_neg (not_lt.2 hopen))

theorem gateCount_of_not_above {c : Config} {rssi : Nat} (gateCnt : Nat) (hbelow : rssi ≤ c.rssiThresh) :
    gateCount c gateCnt rssi = 0 :=
  if_neg (not_lt.2 hbelow)

/-- Settles O34: a block that waits takes the new count, which is one of three. -/
theorem gateCountsReadingsAboveThreshold : Obligations.GateCountsReadingsAboveThreshold := by
  have ⟨_, _, hcode, _⟩ := hostCodesDecodeByTable
  refine ⟨hcode, fun s rssi hrun => ?_⟩
  have hexec : exec (.gate rssi) s = _ := execGate_of_idle rssi hrun
  refine ⟨fun habove hclosed => ?_, fun habove hopen => ?_, fun hbelow => ?_⟩
  · rw [hexec, gateCount_of_above habove hclosed]
  · rw [hexec, gateCount_of_saturated habove hopen]
  · rw [hexec, gateCount_of_not_above _ hbelow]

/-! ## CAPTURE -/

theorem execCapture_of_legal {s : State} {samples : List Bool} (hsize : samples.length = 8 * s.cfg.rawCap)
    (hrun : s.run = false) (hopen : s.gateCnt = s.cfg.rssiHold) :
    execCapture samples s =
      .next { s with
        raw := s.raw.writeBytes 0 (packSamples s.cfg.rawCap samples), rawLoaded := true, gateCnt := 0 } :=
  (if_pos hsize).trans (if_pos ((captureLegal_iff s).2 ⟨hrun, hopen⟩))

theorem execCapture_of_not_legal {s : State} {samples : List Bool} (hsize : samples.length = 8 * s.cfg.rawCap)
    (h : s.run = true ∨ s.gateCnt ≠ s.cfg.rssiHold) : execCapture samples s = .next s := by
  refine (if_pos hsize).trans (if_neg fun hlegal => ?_)
  obtain ⟨hrun, hopen⟩ := (captureLegal_iff s).1 hlegal
  exact h.elim (by simp [hrun]) (absurd hopen)

/-- Packed samples written from byte 0 stand at their place: sample `8i + k` in bit `k` of byte `i`. -/
theorem read_writeBytes_packSamples {m : Memory} (hm : m.wf) (samples : List Bool) {n i k : Nat} (hi : i < n)
    (hk : k < 8) :
    ((m.writeBytes 0 (packSamples n samples)).read i).getLsbD k = samples.getD (8 * i + k) false := by
  have hread := Memory.read_writeBytes hm (packSamples n samples) (a := 0) (i := i) (by simpa using hi)
  rw [Nat.zero_add] at hread
  rw [hread, packSamples_getD samples hi, byteOf_getLsbD _ hk]

/-- Settles O35: the packed samples are read back bit by bit, and the bytes beyond them are those of before. -/
theorem captureFillsRawInSampleOrder : Obligations.CaptureFillsRawInSampleOrder := by
  have ⟨_, _, _, hcode, _⟩ := hostCodesDecodeByTable
  refine ⟨hcode, fun s samples hwf hrun hopen hsize => ?_⟩
  have written : ∀ i k, i < s.cfg.rawCap → k < 8 →
      ((s.raw.writeBytes 0 (packSamples s.cfg.rawCap samples)).read i).getLsbD k = samples.getD (8 * i + k) false :=
    fun _ _ => read_writeBytes_packSamples hwf samples
  have kept : ∀ i, s.cfg.rawCap ≤ i →
      (s.raw.writeBytes 0 (packSamples s.cfg.rawCap samples)).read i = s.raw.read i :=
    fun i hi => Memory.read_writeBytes_other _ _ (.inr (by simpa using hi))
  exact ⟨_, execCapture_of_legal hsize hrun hopen, written, kept, fun _ => rfl, rfl⟩

/-- Settles O39: the size is the first thing CAPTURE looks at. -/
theorem captureOfAnotherSizeIsRefused : Obligations.CaptureOfAnotherSizeIsRefused :=
  fun _ _ hsize => if_neg hsize

/-! ## START and RESET -/

theorem execStart_of_legal {s : State} (hrun : s.run = false) (hloaded : s.rawLoaded = true) :
    execStart s = .next { s.initDecode with run := true } :=
  if_pos ((startLegal_iff s).2 ⟨hrun, hloaded⟩)

theorem execStart_of_not_legal {s : State} (h : s.run = true ∨ s.rawLoaded = false) : execStart s = .next s := by
  refine if_neg fun hlegal => ?_
  obtain ⟨hrun, hloaded⟩ := (startLegal_iff s).1 hlegal
  exact h.elim (by simp [hrun]) (by simp [hloaded])

/-- Settles O36: where START is legal it writes the decode registers and RUN. -/
theorem startInitialisesTheDecode : Obligations.StartInitialisesTheDecode := by
  have ⟨_, _, _, _, hcode, _⟩ := hostCodesDecodeByTable
  exact ⟨hcode, fun s hrun hloaded => execStart_of_legal hrun hloaded⟩

/-- Settles O37: RESET is legal in every state, and what it writes is the reset state but for the host's schedule and
the two memories. -/
theorem resetInitialisesEveryRegister : Obligations.ResetInitialisesEveryRegister := by
  have ⟨_, hcode, _⟩ := hostCodesDecodeByTable
  exact ⟨hcode, fun _ => rfl⟩

/-! ## Commands that are not legal -/

/-- Settles O38: GATE, CAPTURE and START leave the state where they are not legal, the reserved codes always. -/
theorem illegalCommandsChangeNothing : Obligations.IllegalCommandsChangeNothing := by
  have ⟨_, _, _, _, hreserved⟩ := nopAndReservedCodesChangeNothing
  intro s
  have ⟨_, h5, h6, h7, _⟩ := hreserved s
  exact ⟨fun rssi hrun => execGate_of_running rssi hrun, fun samples hsize h => execCapture_of_not_legal hsize h,
    fun h => execStart_of_not_legal h, h5, h6, h7⟩

end Sys2Proof.Machine

/-! Proofs of the statements about two blocks in the same decode (45_host_ops.md R156, 70_reset_and_hazards.md R201).
What one micro-operation does in the first block it does in the second, whose `gate_cnt` it never looks at and whose
FRAME_OUT it only writes; then a decode as a run of such steps. -/

namespace Sys2Proof.Machine

/-! ## Two blocks in lockstep -/

/-- The block with another `gate_cnt` and another FRAME_OUT. -/
def State.withGateAndFrame (s : State) (gateCnt : Nat) (frameOut : Memory) : State :=
  { s with gateCnt := gateCnt, frameOut := frameOut }

theorem Lockstep.exists_withGateAndFrame {s s' : State} (h : Lockstep s s') :
    ∃ gateCnt frameOut, s' = s.withGateAndFrame gateCnt frameOut :=
  ⟨_, _, h.sameRegisters⟩

/-- An update that leaves the parameters and FRAME_OUT, and does not come to FRAME_VALID, keeps two blocks in
lockstep. -/
theorem Lockstep.update {s t : State} {gateCnt : Nat} {frameOut : Memory}
    (h : Lockstep s (s.withGateAndFrame gateCnt frameOut)) (hcfg : t.cfg = s.cfg) (hframe : t.frameOut = s.frameOut)
    (hresult : t.result = .frameValid → s.result = .frameValid) :
    Lockstep t (t.withGateAndFrame gateCnt frameOut) where
  sameRegisters := rfl
  frameForm := hframe ▸ h.frameForm
  frameForm' := h.frameForm'
  sameFrame := fun hvalid => by
    rw [hcfg, hframe]
    exact h.sameFrame (hresult hvalid)

/-! ## The validator -/

theorem checkFrame_of_length_ne {s : State} {frame : List Byte} (hlength : frame.length ≠ s.cfg.frameSize) :
    s.checkFrame frame = { s with nbytes := frame.length, result := .rejectLength, run := false } :=
  if_pos hlength

/-- The checks write the same whole frame to both blocks, or nothing. -/
theorem Lockstep.checkFrame {s s' : State} (h : Lockstep s s') (frame : List Byte) :
    Lockstep (s.checkFrame frame) (s'.checkFrame frame) := by
  obtain ⟨gateCnt, frameOut, rfl⟩ := h.exists_withGateAndFrame
  by_cases hlength : frame.length = s.cfg.frameSize
  · by_cases hsum : frameChecksum s.cfg frame = frameField s.cfg frame
    · rw [checkFrame_of_checked hlength hsum,
        checkFrame_of_checked (s := s.withGateAndFrame gateCnt frameOut) hlength hsum]
      have hread : ∀ {m : Memory}, m.wf → (m.writeBytes 0 frame).readBytes s.cfg.frameSize = frame :=
        fun hm => hlength ▸ Memory.readBytes_writeBytes hm frame
      exact ⟨rfl, Memory.writeBytes_wf h.frameForm 0 frame, Memory.writeBytes_wf h.frameForm' 0 frame,
        fun _ => (hread h.frameForm').trans (hread h.frameForm).symm⟩
    · rw [checkFrame_of_checksum_ne hlength hsum,
        checkFrame_of_checksum_ne (s := s.withGateAndFrame gateCnt frameOut) hlength hsum]
      exact h.update rfl rfl nofun
  · rw [checkFrame_of_length_ne hlength, checkFrame_of_length_ne (s := s.withGateAndFrame gateCnt frameOut) hlength]
    exact h.update rfl rfl nofun

theorem Lockstep.decodedFrame_eq {s s' : State} (h : Lockstep s s') : s'.decodedFrame = s.decodedFrame := by
  obtain ⟨_, _, rfl⟩ := h.exists_withGateAndFrame
  rfl

theorem Lockstep.validate {s s' : State} (h : Lockstep s s') : Lockstep s.validate s'.validate := by
  cases hdecoded : s.decodedFrame with
  | none =>
    rw [validate_of_undecoded hdecoded, validate_of_undecoded (h.decodedFrame_eq.trans hdecoded)]
    obtain ⟨_, _, rfl⟩ := h.exists_withGateAndFrame
    exact h.update rfl rfl nofun
  | some frame =>
    rw [validate_of_decoded hdecoded, validate_of_decoded (h.decodedFrame_eq.trans hdecoded)]
    exact h.checkFrame frame

/-! ## The assembler and the hand-off -/

theorem Lockstep.assemble {s s' : State} (h : Lockstep s s') (a : Assembled) :
    Lockstep (s.assemble a) (s'.assemble a) := by
  obtain ⟨_, _, rfl⟩ := h.exists_withGateAndFrame
  unfold State.assemble
  cases a.stored with
  | none => exact h.update rfl rfl id
  | some b => exact h.update rfl rfl id

theorem Lockstep.full_eq {s s' : State} (h : Lockstep s s') : s'.full = s.full := by
  obtain ⟨_, _, rfl⟩ := h.exists_withGateAndFrame
  rfl

theorem Lockstep.handOff {s s' : State} (h : Lockstep s s') (eof : Bool) :
    Lockstep (s.handOff eof) (s'.handOff eof) := by
  rw [State.handOff, State.handOff, h.full_eq]
  split
  · exact h.validate
  · exact h

/-! ## DELIM -/

theorem delimFinalize_withGateAndFrame (s : State) (gateCnt : Nat) (frameOut : Memory) :
    (s.withGateAndFrame gateCnt frameOut).delimFinalize = s.delimFinalize.withGateAndFrame gateCnt frameOut := by
  rw [State.delimFinalize, State.delimFinalize, apply_ite (State.withGateAndFrame · gateCnt frameOut)]
  rfl

theorem countEdge_withGateAndFrame (s : State) (gateCnt : Nat) (frameOut : Memory) :
    (s.withGateAndFrame gateCnt frameOut).countEdge = s.countEdge.withGateAndFrame gateCnt frameOut := by
  rw [State.countEdge, State.countEdge, apply_ite (State.withGateAndFrame · gateCnt frameOut),
    ← delimFinalize_withGateAndFrame]
  rfl

theorem delimStep_withGateAndFrame (s : State) (gateCnt : Nat) (frameOut : Memory) (edge : Int × Nat) :
    (s.withGateAndFrame gateCnt frameOut).delimStep edge = (s.delimStep edge).withGateAndFrame gateCnt frameOut := by
  simp only [State.delimStep, apply_ite (State.withGateAndFrame · gateCnt frameOut), ← countEdge_withGateAndFrame]
  rfl

theorem DelimStep.lockstep {s t : State} {o : Int} {gateCnt : Nat} {frameOut : Memory} (hstep : DelimStep s o t)
    (h : Lockstep s (s.withGateAndFrame gateCnt frameOut)) : Lockstep t (t.withGateAndFrame gateCnt frameOut) := by
  cases hstep with
  | hunt | lock | edge | enterData => exact h.update rfl rfl id
  | lost | badLength => exact h.update rfl rfl nofun

theorem Lockstep.delimStep {s s' : State} (h : Lockstep s s') (edge : Int × Nat) :
    Lockstep (s.delimStep edge) (s'.delimStep edge) := by
  obtain ⟨gateCnt, frameOut, rfl⟩ := h.exists_withGateAndFrame
  rw [delimStep_withGateAndFrame]
  exact (delimStep_step s edge).lockstep h

/-! ## The micro-operations -/

theorem Lockstep.execUnpack {s s' t : State} (h : Lockstep s s') (hexec : execUnpack s = .next t) :
    ∃ t', execUnpack s' = .next t' ∧ Lockstep t t' := by
  obtain ⟨_, _, rfl⟩ := h.exists_withGateAndFrame
  obtain ⟨hraw, rfl⟩ := execUnpack_next.1 hexec
  exact ⟨_, execUnpack_next.2 ⟨hraw, rfl⟩, h.update rfl rfl id⟩

theorem Lockstep.execPre {s s' t : State} (h : Lockstep s s') (hexec : execPre s = .next t) :
    ∃ t', execPre s' = .next t' ∧ Lockstep t t' := by
  obtain ⟨_, _, rfl⟩ := h.exists_withGateAndFrame
  obtain ⟨hmay, rfl⟩ := execPre_next.1 hexec
  refine ⟨_, execPre_next.2 ⟨hmay, rfl⟩, ?_⟩
  change Lockstep _ (if vote s.win s.rd s.bitLen then State.preHit _ else State.preMiss _)
  split
  · exact h.update rfl rfl id
  · exact h.update rfl rfl id

theorem Lockstep.execDelim {s s' t : State} (h : Lockstep s s') (hexec : execDelim s = .next t) :
    ∃ t', execDelim s' = .next t' ∧ Lockstep t t' := by
  have hstep := h.delimStep (s.edgeAhead s.pol)
  obtain ⟨_, _, rfl⟩ := h.exists_withGateAndFrame
  obtain ⟨hmay, hahead, rfl⟩ := execDelim_next.1 hexec
  exact ⟨_, execDelim_next.2 ⟨hmay, hahead, rfl⟩, hstep⟩

theorem Lockstep.execDataNrz {s s' t : State} (h : Lockstep s s') (hexec : execDataNrz s = .next t) :
    ∃ t', execDataNrz s' = .next t' ∧ Lockstep t t' := by
  obtain ⟨_, _, rfl⟩ := h.exists_withGateAndFrame
  obtain ⟨hmay, hroom, rfl⟩ := execDataNrz_next.1 hexec
  have hmoved := h.update (t := { s with rd := s.nrzCursor (vote s.win s.rd s.bitLen) }) rfl rfl id
  exact ⟨_, execDataNrz_next.2 ⟨hmay, hroom, rfl⟩, (hmoved.assemble _).handOff _⟩

theorem Lockstep.execDataMan {s s' t : State} (h : Lockstep s s') (hexec : execDataMan s = .next t) :
    ∃ t', execDataMan s' = .next t' ∧ Lockstep t t' := by
  obtain ⟨_, _, rfl⟩ := h.exists_withGateAndFrame
  obtain ⟨hmay, hroom, ⟨heof, rfl⟩ | ⟨hgoes, hahead, rfl⟩⟩ := execDataMan_next.1 hexec
  · have hmarked := h.update (t := { s with manOver := overFlag s.groupA s.groupB }) rfl rfl id
    exact ⟨_, execDataMan_next.2 ⟨hmay, hroom, .inl ⟨heof, rfl⟩⟩, (hmarked.assemble _).validate⟩
  · have hmoved := h.update
      (t := { s with
        manOver := overFlag s.groupA s.groupB, rd := s.manCursor (decide (s.groupB < s.groupA)) }) rfl rfl id
    exact ⟨_, execDataMan_next.2 ⟨hmay, hroom, .inr ⟨hgoes, hahead, rfl⟩⟩, (hmoved.assemble _).handOff _⟩

theorem Lockstep.halt {s s' : State} (h : Lockstep s s') {code : Result} (hcode : code ≠ .frameValid) :
    Lockstep (s.halt code) (s'.halt code) := by
  obtain ⟨_, _, rfl⟩ := h.exists_withGateAndFrame
  exact h.update rfl rfl (absurd · hcode)

/-- Where a micro-operation goes on in the first block it does in the second, and the two stay in lockstep. -/
theorem Lockstep.exec {s s' t : State} {i : Instr} (h : Lockstep s s') (hi : isCommand i = false)
    (hexec : exec i s = .next t) : ∃ t', exec i s' = .next t' ∧ Lockstep t t' := by
  cases i with
  | nop | reset | gate | capture | start | reserved5 | reserved6 | reserved7 => cases hi
  | idle =>
    obtain rfl := next_inj.1 hexec
    exact ⟨s', rfl, h⟩
  | exhaust | illegal =>
    obtain rfl := next_inj.1 hexec
    exact ⟨_, rfl, h.halt nofun⟩
  | unpack => exact h.execUnpack hexec
  | pre => exact h.execPre hexec
  | delim => exact h.execDelim hexec
  | dataNrz => exact h.execDataNrz hexec
  | dataMan => exact h.execDataMan hexec

/-! ## The step -/

theorem consumerOf_not_command (strategy : Strategy) (st : SyncState) : isCommand (consumerOf strategy st) = false := by
  cases strategy <;> cases st <;> rfl

theorem scheduled_not_command (s : State) : isCommand s.scheduled = false := by
  unfold State.scheduled
  split
  · split
    · exact consumerOf_not_command _ _
    · split <;> rfl
  · rfl

theorem Lockstep.scheduled_eq {s s' : State} (h : Lockstep s s') : s'.scheduled = s.scheduled := by
  obtain ⟨_, _, rfl⟩ := h.exists_withGateAndFrame
  rfl

theorem Lockstep.nextSlot {s s' : State} (h : Lockstep s s') : Lockstep s.nextSlot s'.nextSlot := by
  obtain ⟨_, _, rfl⟩ := h.exists_withGateAndFrame
  exact h.update rfl rfl id

theorem Lockstep.cfg_eq {s s' : State} (h : Lockstep s s') : s'.cfg = s.cfg :=
  (congrArg State.cfg h.sameRegisters :)

theorem Lockstep.inbox_eq {s s' : State} (h : Lockstep s s') : s'.inbox = s.inbox :=
  (congrArg State.inbox h.sameRegisters :)

/-- Settles O57: both blocks schedule the same micro-operation, which keeps the lockstep. -/
theorem lockstepIsKeptByEveryStep : Obligations.LockstepIsKeptByEveryStep := by
  intro s s' t h hsilent hstep
  have hc : legal s.cfg := (step_next.1 hstep).1
  have hsilent' : s'.hostSilent := by rwa [State.hostSilent, h.inbox_eq]
  rw [step_of_silent hc hsilent] at hstep
  rw [step_of_silent (h.cfg_eq ▸ hc) hsilent', h.scheduled_eq]
  exact h.nextSlot.exec (scheduled_not_command s) hstep

/-! ## A decode as a run -/

/-- What only the host writes, its schedule and `gate_cnt`, is left alone. -/
structure KeepsHostSide (s t : State) : Prop where
  inbox_eq : t.inbox = s.inbox
  gateCnt_eq : t.gateCnt = s.gateCnt

theorem validate_keepsHostSide (s : State) : KeepsHostSide s s.validate :=
  ⟨(congrArg State.inbox (validate_frame s) :), (congrArg State.gateCnt (validate_frame s) :)⟩

theorem assemble_keepsHostSide (s : State) (a : Assembled) : KeepsHostSide s (s.assemble a) :=
  ⟨(congrArg State.inbox (assemble_frame s a) :), (congrArg State.gateCnt (assemble_frame s a) :)⟩

theorem KeepsHostSide.trans {s t u : State} (h : KeepsHostSide s t) (h' : KeepsHostSide t u) : KeepsHostSide s u :=
  ⟨h'.inbox_eq.trans h.inbox_eq, h'.gateCnt_eq.trans h.gateCnt_eq⟩

theorem DelimStep.keepsHostSide {s t : State} {o : Int} (h : DelimStep s o t) : KeepsHostSide s t := by
  cases h <;> exact ⟨rfl, rfl⟩

theorem DataStep.keepsHostSide {s t : State} {rd : Cursor} {ov : Bool} {a : Assembled} (h : DataStep s rd ov a t) :
    KeepsHostSide s t := by
  obtain ⟨hinbox, hgate⟩ := assemble_keepsHostSide ({ s with rd := rd, manOver := ov } : State) a
  obtain rfl | ⟨rfl, -⟩ := h.outcome
  · exact KeepsHostSide.trans ⟨hinbox, hgate⟩ (validate_keepsHostSide _)
  · exact ⟨hinbox, hgate⟩

theorem BlockStep.keepsHostSide {s t : State} (h : BlockStep s t) : KeepsHostSide s t := by
  cases h with
  | idle | exhaust | unpack | preHit | preMiss | illegal => exact ⟨rfl, rfl⟩
  | delim _ _ _ _ _ _ _ hdelim => exact hdelim.keepsHostSide
  | nrz _ _ _ _ _ _ _ _ hdata => exact hdata.keepsHostSide
  | man _ _ _ _ _ _ _ _ _ hdata => exact hdata.keepsHostSide
  | manOver =>
    obtain ⟨hinbox, hgate⟩ := validate_keepsHostSide ({ s with manOver := true } : State)
    exact ⟨hinbox, hgate⟩

/-- Where the schedule is used up the step is the block's own, and the schedule stays used up. -/
theorem step_keepsHostSide_of_quiet {s t : State} (hquiet : s.inbox = []) (hstep : step s = .next t) :
    KeepsHostSide s t := by
  obtain ⟨-, hblock⟩ | ⟨i, ⟨w, hw, -⟩, -⟩ := step_cases hstep
  · obtain ⟨hinbox, hgate⟩ := hblock.keepsHostSide
    exact ⟨by rw [hinbox, nextSlot_inbox, hquiet, List.tail_nil], hgate⟩
  · simp [hquiet] at hw

/-- A run of `k + 1` steps that goes on is a step that goes on and a run of `k`. -/
theorem exists_step_of_run_succ {M : Host.Core} {k : Nat} {s u : M.State} (h : M.run (k + 1) s = .next u) :
    ∃ t, M.step s = .next t ∧ M.run k t = .next u := by
  rw [Host.Core.run] at h
  split at h
  next t ht => exact ⟨t, ht, h⟩
  next => injection h
  next => injection h

/-- Two blocks in lockstep whose hosts issue nothing run in lockstep, each with the `gate_cnt` it had. -/
theorem Lockstep.run {k : Nat} {s s' u : State} (h : Lockstep s s') (hquiet : s.inbox = [])
    (hrun : Sys2Proof.core.run k s = .next u) :
    ∃ u', Sys2Proof.core.run k s' = .next u' ∧ Lockstep u u' ∧ u'.gateCnt = s'.gateCnt := by
  induction k generalizing s s' with
  | zero =>
    obtain rfl := next_inj.1 hrun
    exact ⟨s', rfl, h, rfl⟩
  | succ k ih =>
    obtain ⟨t, hstep, hrest⟩ := exists_step_of_run_succ hrun
    have hsilent : s.hostSilent := by simp [State.hostSilent, hquiet]
    obtain ⟨t', hstep', hlock⟩ := lockstepIsKeptByEveryStep s s' t h hsilent hstep
    have hside := step_keepsHostSide_of_quiet hquiet hstep
    have hside' := step_keepsHostSide_of_quiet (h.inbox_eq.trans hquiet) hstep'
    obtain ⟨u', hrun', hu, hgate⟩ := ih hlock (hside.inbox_eq.trans hquiet) hrest
    exact ⟨u', (run_succ_of_step (M := Sys2Proof.core) hstep' k).trans hrun', hu, hgate.trans hside'.gateCnt_eq⟩

/-- Two blocks in lockstep let the host read the same frame. -/
theorem Lockstep.frameRead_eq {s s' : State} (h : Lockstep s s') : s'.frameRead = s.frameRead := by
  by_cases hread : s.run = false ∧ s.result = .frameValid
  · have hframe := h.sameFrame hread.2
    obtain ⟨_, _, rfl⟩ := h.exists_withGateAndFrame
    exact (if_pos hread).trans ((congrArg some hframe).trans (if_pos hread).symm)
  · obtain ⟨_, _, rfl⟩ := h.exists_withGateAndFrame
    exact (if_neg hread).trans (if_neg hread).symm

/-- START writes every register of the decode, so two blocks with the same `RAW` and parameters start in lockstep. -/
theorem lockstep_of_start {s s' : State} (hcfg : s.cfg = s'.cfg) (hraw : s.raw = s'.raw) (hinbox : s.inbox = s'.inbox)
    (hloaded : s.rawLoaded = s'.rawLoaded) (hwf : s.frameOut.wf) (hwf' : s'.frameOut.wf) :
    Lockstep { s.initDecode with run := true } { s'.initDecode with run := true } where
  sameRegisters := by simp only [State.initDecode, hcfg, hraw, hinbox, hloaded]
  frameForm := hwf
  frameForm' := hwf'
  sameFrame := nofun

/-- Settles O52: the two decodes start in lockstep, and so they run. -/
theorem decodeDependsOnRawAlone : Obligations.DecodeDependsOnRawAlone := by
  intro s s' t t' u k hcfg hraw hinbox hinbox' hwf hwf' hidle hidle' hloaded hloaded' hstart hstart' hrun
  obtain rfl := next_inj.1 ((execStart_of_legal hidle hloaded).symm.trans hstart)
  obtain rfl := next_inj.1 ((execStart_of_legal hidle' hloaded').symm.trans hstart')
  have hlock := lockstep_of_start hcfg hraw (hinbox.trans hinbox'.symm) (hloaded.trans hloaded'.symm) hwf hwf'
  obtain ⟨u', hrun', hu, hgate⟩ := hlock.run hinbox hrun
  have hgate' : u'.gateCnt = s'.gateCnt := hgate
  exact ⟨u', hrun', hgate' ▸ hu.sameRegisters, hu.frameRead_eq⟩

end Sys2Proof.Machine

/-! Proofs of the statements about exceptions (60_exceptions.md R181, R188): every way the block has to end a decode
records a cause, so that beside it only START and RESET write `RUN`; and the halt of the reserved STATE. -/

namespace Sys2Proof.Machine

/-! ## A halt records its cause -/

theorem validate_result_ne_none (s : State) : s.validate.result ≠ .none := by
  obtain ⟨n, r, hr, h⟩ | ⟨frame, -, -, h⟩ := validate_cases s <;> rw [h]
  · obtain rfl | rfl | rfl := hr <;> exact nofun
  · exact nofun

theorem DelimStep.result_ne_none_of_stop {s t : State} {o : Int} (h : DelimStep s o t) (hrun : s.run = true)
    (hstop : t.run = false) : t.result ≠ .none := by
  cases h with
  | hunt | lock | edge | enterData => exact absurd hrun (Bool.eq_false_iff.1 hstop)
  | lost | badLength => exact nofun

theorem DataStep.result_ne_none_of_stop {s t : State} {rd : Cursor} {ov : Bool} {a : Assembled}
    (h : DataStep s rd ov a t) (hrun : s.run = true) (hstop : t.run = false) : t.result ≠ .none := by
  obtain rfl | ⟨rfl, -⟩ := h.outcome
  · exact validate_result_ne_none _
  · rw [assemble_frame] at hstop
    exact absurd hrun (Bool.eq_false_iff.1 hstop)

/-- A step of the block that ends the decode leaves its cause in `RESULT` (60_exceptions.md R181). -/
theorem BlockStep.result_ne_none_of_stop {s t : State} (h : BlockStep s t) (hrun : s.run = true)
    (hstop : t.run = false) : t.result ≠ .none := by
  cases h with
  | idle | unpack | preHit | preMiss => exact absurd hrun (Bool.eq_false_iff.1 hstop)
  | exhaust | illegal => exact nofun
  | delim _ _ _ _ _ _ _ hdelim => exact hdelim.result_ne_none_of_stop hrun hstop
  | nrz _ _ _ _ _ _ _ _ hdata => exact hdata.result_ne_none_of_stop hrun hstop
  | man _ _ _ _ _ _ _ _ _ hdata => exact hdata.result_ne_none_of_stop hrun hstop
  | manOver => exact validate_result_ne_none _

/-- Settles O49: an idle block stays idle by itself and a running one stops only with a cause; of the commands START
raises `RUN`, RESET clears it, and the others leave it. -/
theorem runChangesOnlyByStartHaltAndReset : Obligations.RunChangesOnlyByStartHaltAndReset := by
  intro s t hstep
  obtain ⟨hsilent, hblock⟩ | ⟨i, hissues, hcommand⟩ := step_cases hstep
  · refine ⟨fun hidle hgo => ?_, fun hrun hstop => .inr ⟨hsilent, hblock.result_ne_none_of_stop hrun hstop⟩⟩
    obtain rfl := hblock.eq_of_idle hidle
    exact absurd hgo (Bool.eq_false_iff.1 hidle)
  · cases hcommand with
    | unchanged | gate | capture =>
      exact ⟨fun hidle hgo => absurd hgo (Bool.eq_false_iff.1 hidle),
        fun hrun hstop => absurd hrun (Bool.eq_false_iff.1 hstop)⟩
    | reset hreset => exact ⟨nofun, fun _ _ => .inl (hreset ▸ hissues)⟩
    | start hstart _ hloaded => exact ⟨fun _ _ => ⟨hstart ▸ hissues, hloaded, rfl⟩, nofun⟩

/-! ## The reserved STATE -/

/-- Settles O13: the pattern is a row of the map, ILLEGAL is the halt alone, and the reserved STATE schedules it. -/
theorem illegalHaltsWithItsCode : Obligations.IllegalHaltsWithItsCode := by
  refine ⟨selects_of_mem (by decide), fun _ => rfl, fun s hc hsilent hrun hst => ?_⟩
  calc step s = exec s.scheduled s.nextSlot := step_of_silent hc hsilent
    _ = exec .illegal s.nextSlot := by rw [scheduled_of_reserved hrun hst]
    _ = .next { s with inbox := s.inbox.tail, result := .faultIllegal, run := false } := rfl

end Sys2Proof.Machine

/-! Proofs of the statements about reset and hazards (70_reset_and_hazards.md R204, R206, R209): where the consumer
steps stop, what becomes of a command while a decode is in flight, and that every decode ends. -/

namespace Sys2Proof.Machine

/-! ## Where a consumer step stops -/

theorem withLookahead_of_badLength {strategy : Strategy} {st : SyncState} {s : State} {body : Out}
    (h : s.bitLen < 1 ∨ 10 < s.bitLen) : withLookahead strategy st s body = .refused .bitLength :=
  if_neg fun hlegal => by
    obtain ⟨hlow, hhigh⟩ := (lengthLegal_iff s).1 hlegal
    omega

theorem withLookahead_of_short {strategy : Strategy} {st : SyncState} {s : State} {body : Out} (hlow : 1 ≤ s.bitLen)
    (hhigh : s.bitLen ≤ 10) (hshort : s.avail < needFor s.cfg strategy st s.bitLen) :
    withLookahead strategy st s body = .fault .lookahead :=
  (if_pos ((lengthLegal_iff s).2 ⟨hlow, hhigh⟩)).trans (if_neg (not_le.2 hshort))

/-- Settles O27: the four steps look at the length, then at the lookahead, then DELIM at its scorer; the demands written
out are those of the model. -/
theorem consumerStepsStopOutsideTheirConditions : Obligations.ConsumerStepsStopOutsideTheirConditions := by
  intro s
  refine ⟨fun hlength => ?_, fun hlow hhigh => ?_, fun hmay hbehind => ?_⟩
  · exact ⟨withLookahead_of_badLength hlength, withLookahead_of_badLength hlength,
      withLookahead_of_badLength hlength, withLookahead_of_badLength hlength⟩
  · exact ⟨(withLookahead_of_short hlow hhigh ·), (withLookahead_of_short hlow hhigh ·),
      (withLookahead_of_short hlow hhigh ·), (withLookahead_of_short hlow hhigh ·)⟩
  · exact (withLookahead_of_mayConsume _ hmay).trans (withScorer_of_behind _ hbehind)

/-! ## Commands during a decode -/

/-- While a decode is in flight no command but RESET does anything (45_host_ops.md R150). -/
theorem exec_command_of_running {i : Instr} {s : State} (hi : isCommand i = true) (hrun : s.run = true)
    (hwf : i.wellFormed s.cfg = true) (hreset : i ≠ .reset) : exec i s = .next s := by
  cases i with
  | idle | exhaust | unpack | pre | delim | dataNrz | dataMan | illegal => cases hi
  | reset => exact absurd rfl hreset
  | nop | reserved5 | reserved6 | reserved7 => rfl
  | gate rssi => exact execGate_of_running rssi hrun
  | capture samples => exact execCapture_of_not_legal (beq_iff_eq.1 hwf) (.inl hrun)
  | start => exact execStart_of_not_legal (.inl hrun)

/-- Settles O9: the step runs the command on the state whose slot is used up, and the command leaves that state. -/
theorem commandsDuringDecodeAreLost : Obligations.CommandsDuringDecodeAreLost := by
  intro s i hc hrun hissues hwf hreset
  rw [step_of_hostIssues hc hissues hwf]
  exact exec_command_of_running (s := s.nextSlot) (isCommand_of_hostIssues hissues) hrun hwf hreset

/-! ## What a consumer step leaves of the work -/

@[simp] theorem validate_rawIdx (s : State) : s.validate.rawIdx = s.rawIdx :=
  (congrArg State.rawIdx (validate_frame s) :)
@[simp] theorem assemble_rawIdx (s : State) (a : Assembled) : (s.assemble a).rawIdx = s.rawIdx :=
  (congrArg State.rawIdx (assemble_frame s a) :)

theorem DelimStep.rawIdx_eq {s t : State} {o : Int} (h : DelimStep s o t) : t.rawIdx = s.rawIdx := by
  cases h <;> rfl

theorem DataStep.rawIdx_eq {s t : State} {rd : Cursor} {ov : Bool} {a : Assembled} (h : DataStep s rd ov a t) :
    t.rawIdx = s.rawIdx := by
  obtain rfl | ⟨rfl, -⟩ := h.outcome <;> simp

/-- Only UNPACK takes a raw byte, and it runs for lack of lookahead alone (20_memory.md R39). -/
theorem BlockStep.rawIdx_eq {s t : State} (h : BlockStep s t) (henough : s.need ≤ s.avail) : t.rawIdx = s.rawIdx := by
  cases h with
  | idle | exhaust | preHit | preMiss | illegal => rfl
  | unpack _ _ hshort => exact absurd henough (not_le.2 hshort)
  | delim _ _ _ _ _ _ _ hdelim => exact hdelim.rawIdx_eq
  | nrz _ _ _ _ _ _ _ _ hdata => exact hdata.rawIdx_eq
  | man _ _ _ _ _ _ _ _ _ hdata => exact hdata.rawIdx_eq
  | manOver => simp

/-- The ring has 32 places: a cursor moved by fewer is not where it was. -/
theorem cursor_add_ne (p : Cursor) {n : Nat} (hpos : 0 < n) (hlt : n < 32) : p + BitVec.ofNat 5 n ≠ p := by
  intro h
  have hzero : n % 32 = 0 := (BitVec.toNat_ofNat n 5).symm.trans (congrArg BitVec.toNat (add_eq_left.1 h))
  omega

theorem cursor_add_offset_ne (p : Cursor) {n : Nat} {o : Int} (hpos : 0 < n + o) (hlt : n + o < 32) :
    p + BitVec.ofNat 5 n + BitVec.ofInt 5 o ≠ p :=
  (cursor_add_offset p hpos.le).trans_ne (cursor_add_ne p (by omega) (by omega))

/-- DELIM moves `rd` wherever the decode goes on: by one in the hunt, else to the edge, which is at most two samples
before `rd + L`, and then over the guard skip. -/
theorem DelimStep.rd_ne {s t : State} {o : Int} (h : DelimStep s o t) (hgo : t.run = true) (hlen : 3 ≤ s.bitLen)
    (hmax : s.bitLen ≤ 10) (hlow : -2 ≤ o) (hhigh : o ≤ 2) : t.rd ≠ s.rd := by
  cases h with
  | hunt => exact cursor_add_ne s.rd (n := 1) (by omega) (by omega)
  | lost | badLength => cases hgo
  | lock | edge => exact cursor_add_offset_ne s.rd (by omega) (by omega)
  | enterData n _ _ _ _ hn =>
    have hskip : (s.takeEdge o).rd + BitVec.ofNat 5 n = s.rd + BitVec.ofNat 5 ((s.bitLen + o).toNat + n) := by
      rw [takeEdge_rd, cursor_add_offset s.rd (by omega), BitVec.ofNat_add, add_assoc]
    exact hskip.trans_ne (cursor_add_ne s.rd (by omega) (by omega))

/-- A consumer step of a decode that goes on is the PRE hit, or moves `rd` (70_reset_and_hazards.md R209). -/
theorem BlockStep.hits_or_moves {s t : State} (h : BlockStep s t) (hinv : Inv s) (hrun : s.run = true)
    (henough : s.need ≤ s.avail) (hgo : t.run = true) :
    s.st = .preamble ∧ t.st = .delimiter ∨ t.rd ≠ s.rd := by
  obtain ⟨-, hmax⟩ := hinv.lengthRange
  obtain ⟨⟨-, -, ⟨hhalf, -⟩, -⟩, -⟩ := hinv.legalParameters
  have hlen : 3 ≤ s.bitLen := (Nat.add_le_add_right hhalf 2).trans hinv.scorerAhead
  simp only [lMax] at hmax
  cases h with
  | idle hidle => simp [hrun] at hidle
  | exhaust _ _ hshort | unpack _ _ hshort => exact absurd henough (not_le.2 hshort)
  | preHit _ _ hst => exact .inl ⟨hst, rfl⟩
  | preMiss => exact .inr (cursor_add_ne s.rd (by omega) (by omega))
  | delim o _ _ _ _ hlow hhigh hdelim => exact .inr (hdelim.rd_ne hgo hlen hmax hlow hhigh)
  | nrz j v _ _ _ _ hlow hhigh hdata =>
    exact .inr (hdata.rd_eq.trans_ne (cursor_add_offset_ne s.rd (by omega) (by omega)))
  | man o v _ _ _ _ _ hlow hhigh hdata =>
    exact .inr (hdata.rd_eq.trans_ne (cursor_add_offset_ne s.rd (by omega) (by omega)))
  | manOver => simp at hgo
  | illegal => cases hgo

/-- A consumer step takes samples, or is the PRE hit: the raw bytes stay, and PREAMBLE is not entered again. -/
theorem BlockStep.workLeft_lt_of_enough {s t : State} (h : BlockStep s t) (hinv : Inv s) (hrun : s.run = true)
    (henough : s.need ≤ s.avail) (hgo : t.run = true) : t.workLeft < s.workLeft := by
  obtain ⟨n, hn, htakes⟩ := h.takes hinv hrun henough
  have hwork : t.workLeft = 9 * (s.cfg.rawCap - s.rawIdx) + (s.avail - n) + if t.st = .preamble then 1 else 0 := by
    rw [State.workLeft, h.keepsMemories.cfg_eq, h.rawIdx_eq henough, htakes.avail (hn.trans henough)]
  rw [hwork, State.workLeft]
  obtain ⟨hs, ht⟩ | hmoved := h.hits_or_moves hinv hrun henough hgo
  · rw [if_pos hs, if_neg (by simp [ht])]
    omega
  · have hpos : n ≠ 0 := by
      rintro rfl
      exact hmoved (htakes.rd_eq.trans (add_zero _))
    have hst : t.st = .preamble → s.st = .preamble := fun ht => (h.advance.from_of_end (.inr ht)).trans ht
    by_cases ht : t.st = .preamble
    · rw [if_pos ht, if_pos (hst ht)]
      omega
    · rw [if_neg ht]
      omega

/-- UNPACK takes a raw byte, nine of the measure, for its eight samples; EXHAUST ends the decode. -/
theorem BlockStep.workLeft_lt_of_short {s t : State} (h : BlockStep s t) (hinv : Inv s) (hrun : s.run = true)
    (hshort : s.avail < s.need) (hgo : t.run = true) : t.workLeft < s.workLeft := by
  have havail := h.avail_unpack hinv hrun hshort
  cases h with
  | idle hidle => simp [hrun] at hidle
  | exhaust | illegal => cases hgo
  | unpack _ hraw =>
    simp only [State.workLeft, havail hraw]
    omega
  | preHit _ henough | preMiss _ henough | delim _ _ henough | nrz _ _ _ henough | man _ _ _ henough
  | manOver _ henough => exact absurd henough (not_le.2 hshort)

/-- Settles O56: the measure does not speak of the schedule's slot, and the rule of R39 splits the step by its
lookahead. -/
theorem everyRunningStepLeavesLessWork : Obligations.EveryRunningStepLeavesLessWork := by
  intro s t h hsilent hrun hstep
  rw [step_of_silent h.legalParameters hsilent] at hstep
  have hblock : BlockStep s.nextSlot t := blockStep_of_scheduled hstep
  cases hgo : t.run with
  | false => exact .inl rfl
  | true =>
    refine .inr ⟨rfl, ?_⟩
    by_cases henough : s.need ≤ s.avail
    · exact hblock.workLeft_lt_of_enough h.nextSlot hrun henough hgo
    · exact hblock.workLeft_lt_of_short h.nextSlot hrun (not_le.1 henough) hgo

/-! ## The end of a decode -/

theorem not_hostIssues_of_silent {s : State} (h : s.hostSilent) (i : Instr) : ¬ s.hostIssues i :=
  fun ⟨_, hw, _⟩ => nomatch h.symm.trans hw

/-- Where the schedule is used up a block under the invariant makes a step that keeps it so. -/
theorem Inv.exists_step_of_quiet {s : State} (h : Inv s) (hquiet : s.inbox = []) :
    ∃ t, step s = .next t ∧ Inv t ∧ t.inbox = [] := by
  have hsilent : s.hostSilent := by simp [State.hostSilent, hquiet]
  obtain ⟨t, hstep⟩ := legalRunNeverStops s h fun i hissues => absurd hissues (not_hostIssues_of_silent hsilent i)
  have hside : KeepsHostSide s t := step_keepsHostSide_of_quiet hquiet hstep
  exact ⟨t, hstep, everyStepKeepsTheInvariant s t h hstep, hside.inbox_eq.trans hquiet⟩

/-- The work left bounds the steps that are left, but for the one that halts. -/
theorem Inv.exists_run_to_halt {s : State} (h : Inv s) (hquiet : s.inbox = []) (hrun : s.run = true) :
    ∃ k u, k ≤ s.workLeft + 1 ∧ Sys2Proof.core.run k s = .next u ∧ u.run = false ∧ u.result ≠ .none := by
  induction hwork : s.workLeft using Nat.strong_induction_on generalizing s with
  | _ n ih =>
    have hsilent : s.hostSilent := by simp [State.hostSilent, hquiet]
    obtain ⟨t, hstep, ht, htquiet⟩ := h.exists_step_of_quiet hquiet
    have hfirst (k : Nat) : Sys2Proof.core.run (k + 1) s = Sys2Proof.core.run k t :=
      run_succ_of_step (M := Sys2Proof.core) hstep k
    obtain hstop | ⟨hgo, hless⟩ := everyRunningStepLeavesLessWork s t h hsilent hrun hstep
    · have hreset : ¬ s.hostIssues .reset := not_hostIssues_of_silent hsilent _
      have hcause := (runChangesOnlyByStartHaltAndReset s t hstep).2 hrun hstop
      exact ⟨1, t, by omega, hfirst 0, hstop, (hcause.resolve_left hreset).2⟩
    · obtain ⟨k, u, hk, hu, hend⟩ := ih t.workLeft (hwork ▸ hless) ht htquiet hgo rfl
      exact ⟨k + 1, u, by omega, (hfirst k).trans hu, hend⟩

/-- Settles O51: START leaves `9 * RAW_CAP` for the raw bytes, no samples, and the PRE hit. -/
theorem everyDecodeHalts : Obligations.EveryDecodeHalts := by
  intro s t h hidle hloaded hquiet hstart
  obtain rfl := next_inj.1 ((execStart_of_legal hidle hloaded).symm.trans hstart)
  obtain ⟨k, u, hk, hu, hend⟩ := (h.start hloaded).exists_run_to_halt hquiet rfl
  have hwork : ({ s.initDecode with run := true } : State).workLeft = 9 * s.cfg.rawCap + 1 := by
    simp [State.workLeft, State.avail]
  exact ⟨k, u, by omega, hu, hend⟩

end Sys2Proof.Machine
